-- ==== Sys2Proof/Word.lean ====
section
/-! DEFINITION. The widths the spec fixes (00_scope.md, end of section 4): the command word, a data byte, the 7-bit
device address and the 16-bit delay and length. A single bit or line level is a `Bool`: `true` is 1, high (R10). -/

namespace Sys2Proof

/-- The command word and every host register: 32 bits (R80, R32). -/
abbrev Word := BitVec 32

/-- A data byte: 8 bits (R85). -/
abbrev Byte := BitVec 8

/-- A device address: 7 bits (R88). -/
abbrev Addr7 := BitVec 7

/-- The delay in microseconds and the payload length: 16 bits (R35, R87, R88). -/
abbrev Half := BitVec 16

end Sys2Proof
end

