-- ==== Sys2Proof/Syntax.lean ====
section
/-! DEFINITION. The two lines of the bus and the twelve commands of the opcode map (30_encoding.md R90). Operands have
exactly the widths their formats give them (R82 to R88), so every term of `Instr` is a command some word encodes. -/

namespace Sys2Proof

/-- A line of the bus (R16). -/
inductive Line where
  | sda
  | scl
  deriving DecidableEq, Repr, Inhabited

/-- One value for each line: the latches, the environment's hold bits, the levels. -/
structure PerLine (α : Type) where
  sda : α
  scl : α
  deriving DecidableEq, Repr, Inhabited

/-- The value of line `l`. -/
def PerLine.get {α : Type} (p : PerLine α) : Line → α
  | .sda => p.sda
  | .scl => p.scl

/-- `p` with line `l` set to `v`. -/
def PerLine.set {α : Type} (p : PerLine α) (l : Line) (v : α) : PerLine α :=
  match l with
  | .sda => { p with sda := v }
  | .scl => { p with scl := v }

/-- What the engine sends in the ninth clock of a byte it reads (R86): `ack` is operand A = 0, `nack` is A = 1. -/
inductive Ack where
  | ack
  | nack
  deriving DecidableEq, Repr, Inhabited

/-- The commands (R90), one constructor per row of spec/opcode_table.json. -/
inductive Instr where
  /-- `DRIVE_LOW L` (R120). -/
  | driveLow (l : Line)
  /-- `RELEASE L` (R121). -/
  | release (l : Line)
  /-- `SAMPLE L` (R122). -/
  | sample (l : Line)
  /-- `HALF_DELAY` (R123). -/
  | halfDelay
  /-- `SET_DELAY n` (R124), `us` is IMM16. -/
  | setDelay (us : Half)
  /-- `START` (R185). -/
  | start
  /-- `RSTART` (R186). -/
  | rstart
  /-- `STOP` (R187). -/
  | stop
  /-- `WRITE_BYTE d` (R150). -/
  | writeByte (d : Byte)
  /-- `READ_BYTE a` (R151). -/
  | readByte (a : Ack)
  /-- `WRITE_MSG addr, len` (R190). -/
  | writeMsg (addr : Addr7) (len : Half)
  /-- `READ_MSG addr, len` (R191). -/
  | readMsg (addr : Addr7) (len : Half)
  deriving DecidableEq, Repr, Inhabited

end Sys2Proof
end

