-- ==== Sys2Proof/Config.lean ====
section
/-! DEFINITION. What an implementation fixes (00_scope.md R8, 10_state.md R24) and the values the spec leaves open. The
parameters are plain data carried in State (log entry 1); an open value is an opaque constant with no body, applied to
a counter of State, so that nothing can be proved about which value it is. -/

namespace Sys2Proof

/-- A pin binding (R24): three GPIO registers, named by numbers, and the bit index within them. -/
structure PinBinding where
  dirReg : Nat
  outReg : Nat
  inReg : Nat
  bit : Nat
  deriving DecidableEq, Repr, Inhabited

/-- The implementation parameters (R8) that the engine's rules read. -/
structure Params where
  /-- `SDA_BIND`; absent means the configuration is refused (R9). -/
  sdaBind : Option PinBinding
  /-- `SCL_BIND`. -/
  sclBind : Option PinBinding
  /-- `DELAY_RESET`, microseconds. -/
  delayReset : Half
  /-- `STRETCH_POLLS`: the most samples of SCL in one wait (R140). -/
  stretchPolls : Nat
  /-- `STRETCH_TIMEOUT_IS_ERROR`, written `P` in the spec (R143). -/
  timeoutIsError : Bool
  /-- `BUF_SIZE`: the bytes of the buffer space (R63). -/
  bufSize : Nat
  deriving DecidableEq, Repr, Inhabited

/-- The defaults of R8. The bindings have no default: the two pins named here are a DESIGN CHOICE (log entry 2); no rule
of the engine reads them beyond the refusals of R9 and R25. -/
def Config.defaults : Params where
  sdaBind := some { dirReg := 0, outReg := 1, inReg := 2, bit := 0 }
  sclBind := some { dirReg := 0, outReg := 1, inReg := 2, bit := 1 }
  delayReset := 5#16
  stretchPolls := 10000
  timeoutIsError := true
  bufSize := 65536

/-- Free value (log entry 3): the changes of both hold bits the environment makes in the gap that begins at instant `t`,
once its plan in State is used up. The model puts no law on them (R22). -/
opaque Config.envMoves (t : Nat) : List (PerLine Bool)

/-- Free value (log entry 4): the level read at instant `t` on a line that is driven high and held low (R29). -/
opaque Config.contentionLevel (t : Nat) (l : Line) : Bool

/-- Free value (log entry 5): `GPIO_PRE_DIR`, the direction latches before reset (R8, R251). -/
opaque Config.gpioPreDir : PerLine Bool

/-- Free value (log entry 5): `GPIO_PRE_OUT`, the output latches before reset (R8, R251). -/
opaque Config.gpioPreOut : PerLine Bool

/-- Free value (log entry 5): the environment's hold bits before reset, which reset does not set (R47). -/
opaque Config.extPre : PerLine Bool

end Sys2Proof
end

