-- ==== Sys2Proof/WellFormed.lean ====
section
/-! DEFINITION. Which configurations are an engine (00_scope.md R9, 10_state.md R25), and the one condition on a
command's operands beyond their widths (30_encoding.md R97: a message's length fits the buffer). -/

namespace Sys2Proof

/-- R25: the two pins share neither a direction bit nor an output bit. -/
def PinBinding.distinct (a b : PinBinding) : Bool :=
  !(a.bit == b.bit && (a.dirReg == b.dirReg || a.outReg == b.outReg))

/-- R9, R25: both bindings are given and name different pins. -/
def Params.bound (c : Params) : Bool :=
  match c.sdaBind, c.sclBind with
  | some a, some b => a.distinct b
  | some _, none => false
  | none, some _ => false
  | none, none => false

/-- R9: the poll budget is not 0. -/
def Params.pollsOk (c : Params) : Bool := 0 < c.stretchPolls

/-- R9: `BUF_SIZE` is 1 to 65536. -/
def Params.bufSizeOk (c : Params) : Bool := 0 < c.bufSize && c.bufSize ≤ 65536

/-- R9: a configuration that is not refused. -/
def Params.ok (c : Params) : Bool := c.bound && c.pollsOk && c.bufSizeOk

/-- R97's further condition: a message's payload fits a buffer of `size` bytes. No other command has one. -/
def Instr.fits (size : Nat) : Instr → Bool
  | .driveLow _ => true
  | .release _ => true
  | .sample _ => true
  | .halfDelay => true
  | .setDelay _ => true
  | .start => true
  | .rstart => true
  | .stop => true
  | .writeByte _ => true
  | .readByte _ => true
  | .writeMsg _ len => len.toNat ≤ size
  | .readMsg _ len => len.toNat ≤ size

end Sys2Proof
end

