-- ==== Sys2Proof/Decode.lean ====
section
/-! DEFINITION. The decoder (30_encoding.md R94), total on every 32-bit word and rejecting by name; after it the
encoder, written from the same formats (R82), and the opcode map (R90) as a table of masks. -/

namespace Sys2Proof

/-- Why a word is illegal (R91, R92). Both causes have the same effect, `reject()` (R225). -/
inductive IllegalWord where
  /-- R92: `OPC` is 0x0, 0xD, 0xE or 0xF. -/
  | reservedOpcode
  /-- R91: a bit the format requires to be 0 is 1. -/
  | reservedBits
  deriving DecidableEq, Repr

/-- R93: every word is a command or illegal. -/
inductive Decoded where
  | command (i : Instr)
  | illegal (cause : IllegalWord)
  deriving DecidableEq, Repr

/-- `w[lo+n-1:lo]` (R10). -/
def bitField (w : Word) (lo n : Nat) : BitVec n := w.extractLsb' lo n

/-- `line(0)` = SDA, `line(1)` = SCL (R89). -/
def lineOfBit (b : BitVec 1) : Line := if b = 0#1 then .sda else .scl

/-- The operand bit `L` of a line (R84). -/
def Line.toBit : Line → BitVec 1
  | .sda => 0#1
  | .scl => 1#1

/-- The operand bit `A` as what the engine sends (R86). -/
def ackOfBit (b : BitVec 1) : Ack := if b = 0#1 then .ack else .nack

/-- The operand bit `A` (R86). -/
def Ack.toBit : Ack → BitVec 1
  | .ack => 0#1
  | .nack => 1#1

/-- The command `i` where the format's zero bits are zero, illegal otherwise (R91). -/
def whenZero {n : Nat} (zeros : BitVec n) (i : Instr) : Decoded :=
  if zeros = 0#n then .command i else .illegal .reservedBits

/-- `Decode(w)` (R94). -/
def decode (w : Word) : Decoded :=
  if bitField w 24 4 ≠ 0#4 then .illegal .reservedBits
  else match bitField w 28 4 with
    | 0x1#4 => whenZero (bitField w 1 23) (.driveLow (lineOfBit (bitField w 0 1)))
    | 0x2#4 => whenZero (bitField w 1 23) (.release (lineOfBit (bitField w 0 1)))
    | 0x3#4 => whenZero (bitField w 1 23) (.sample (lineOfBit (bitField w 0 1)))
    | 0x4#4 => whenZero (bitField w 0 24) .halfDelay
    | 0x5#4 => whenZero (bitField w 0 8) (.setDelay (bitField w 8 16))
    | 0x6#4 => whenZero (bitField w 0 24) .start
    | 0x7#4 => whenZero (bitField w 0 24) .rstart
    | 0x8#4 => whenZero (bitField w 0 24) .stop
    | 0x9#4 => whenZero (bitField w 8 16) (.writeByte (bitField w 0 8))
    | 0xA#4 => whenZero (bitField w 1 23) (.readByte (ackOfBit (bitField w 0 1)))
    | 0xB#4 => whenZero (bitField w 7 1) (.writeMsg (bitField w 0 7) (bitField w 8 16))
    | 0xC#4 => whenZero (bitField w 7 1) (.readMsg (bitField w 0 7) (bitField w 8 16))
    | _ => .illegal .reservedOpcode

/-- Format N (R83): `oooo 0000` and 24 zero bits. -/
def formatN (opc : BitVec 4) : Word := opc ++ (0#28 : BitVec 28)

/-- Formats L and A (R84, R86): `oooo`, 27 zero bits, one operand bit. -/
def formatBit (opc : BitVec 4) (b : BitVec 1) : Word := opc ++ (0#27 : BitVec 27) ++ b

/-- Format B (R85): `oooo`, 20 zero bits, the data byte. -/
def formatB (opc : BitVec 4) (d : Byte) : Word := opc ++ (0#20 : BitVec 20) ++ d

/-- Format I (R87): `oooo 0000`, IMM16, 8 zero bits. -/
def formatI (opc : BitVec 4) (imm : Half) : Word := opc ++ (0#4 : BitVec 4) ++ imm ++ (0#8 : BitVec 8)

/-- Format M (R88): `oooo 0000`, LEN, a zero bit, ADDR7. -/
def formatM (opc : BitVec 4) (len : Half) (addr : Addr7) : Word :=
  opc ++ (0#4 : BitVec 4) ++ len ++ (0#1 : BitVec 1) ++ addr

/-- The word of a command (R82, R90). -/
def encode : Instr → Word
  | .driveLow l => formatBit 0x1#4 l.toBit
  | .release l => formatBit 0x2#4 l.toBit
  | .sample l => formatBit 0x3#4 l.toBit
  | .halfDelay => formatN 0x4#4
  | .setDelay us => formatI 0x5#4 us
  | .start => formatN 0x6#4
  | .rstart => formatN 0x7#4
  | .stop => formatN 0x8#4
  | .writeByte d => formatB 0x9#4 d
  | .readByte a => formatBit 0xA#4 a.toBit
  | .writeMsg addr len => formatM 0xB#4 len addr
  | .readMsg addr len => formatM 0xC#4 len addr

/-- The mnemonic of a command (R90). -/
def Instr.mnemonic : Instr → String
  | .driveLow _ => "DRIVE_LOW"
  | .release _ => "RELEASE"
  | .sample _ => "SAMPLE"
  | .halfDelay => "HALF_DELAY"
  | .setDelay _ => "SET_DELAY"
  | .start => "START"
  | .rstart => "RSTART"
  | .stop => "STOP"
  | .writeByte _ => "WRITE_BYTE"
  | .readByte _ => "READ_BYTE"
  | .writeMsg _ _ => "WRITE_MSG"
  | .readMsg _ _ => "READ_MSG"

/-- A row of the opcode map: `w` encodes the row's command when `w & mask = bits` (R90). -/
structure OpcodeRow where
  mnemonic : String
  bits : Word
  mask : Word
  deriving DecidableEq, Repr

/-- Does word `w` encode this row's command (R90)? -/
def OpcodeRow.encodes (r : OpcodeRow) (w : Word) : Bool := w &&& r.mask == r.bits

/-- The opcode map of R90, row by row. -/
def opcodeTable : List OpcodeRow :=
  [ ⟨"DRIVE_LOW", 0x10000000#32, 0xFFFFFFFE#32⟩,
    ⟨"RELEASE", 0x20000000#32, 0xFFFFFFFE#32⟩,
    ⟨"SAMPLE", 0x30000000#32, 0xFFFFFFFE#32⟩,
    ⟨"HALF_DELAY", 0x40000000#32, 0xFFFFFFFF#32⟩,
    ⟨"SET_DELAY", 0x50000000#32, 0xFF0000FF#32⟩,
    ⟨"START", 0x60000000#32, 0xFFFFFFFF#32⟩,
    ⟨"RSTART", 0x70000000#32, 0xFFFFFFFF#32⟩,
    ⟨"STOP", 0x80000000#32, 0xFFFFFFFF#32⟩,
    ⟨"WRITE_BYTE", 0x90000000#32, 0xFFFFFF00#32⟩,
    ⟨"READ_BYTE", 0xA0000000#32, 0xFFFFFFFE#32⟩,
    ⟨"WRITE_MSG", 0xB0000000#32, 0xFF000080#32⟩,
    ⟨"READ_MSG", 0xC0000000#32, 0xFF000080#32⟩ ]

/-- The instruction the decoder reads from the low `nbits` bits of `w`, the bits above them zero (every command is one
32-bit word, R80). -/
def decodeTableWord (nbits w : Nat) : Option Instr :=
  match decode (BitVec.ofNat 32 (w % 2 ^ nbits)) with
  | .command i => some i
  | .illegal _ => none

end Sys2Proof
end

