-- ==== Sys2Proof/Machine/Operands.lean ====
section
/-! DEFINITION. The values operands stand for: zero extension (30_encoding.md R89), the address byte (R101), the level
of an acknowledgment (R86, R102), and setting one bit of a byte (00_scope.md R10). -/

namespace Sys2Proof.Machine

/-- A level as a number: 1 high, 0 low (R10). -/
def bitOfLevel (b : Bool) : BitVec 1 := BitVec.ofBool b

/-- `zext_8` of a level (R41). -/
def byteOfLevel (b : Bool) : Byte := (bitOfLevel b).zeroExtend 8

/-- The direction bit of the address byte (R101). -/
inductive Direction where
  | write
  | read
  deriving DecidableEq, Repr

/-- `RW`: 0 for a write, 1 for a read (R101). -/
def Direction.toBit : Direction → BitVec 1
  | .write => 0#1
  | .read => 1#1

/-- The address byte: the address shifted left one place, or'ed with the direction bit (R101). -/
def addressByte (addr : Addr7) (rw : Direction) : Byte :=
  ((addr.zeroExtend 8) <<< 1) ||| (rw.toBit.zeroExtend 8)

/-- The level the engine puts on SDA to acknowledge: low is ACK, high is NACK (R86, R102). -/
def ackLevel : Ack → Bool
  | .ack => false
  | .nack => true

/-- `a <- if i = LEN-1 then 1 else 0` (R191), `left` being the bytes still to read after this one. -/
def ackFor : Nat → Ack
  | 0 => .nack
  | _ + 1 => .ack

/-- `v[i] <- b`. -/
def setBit (v : Byte) (i : Nat) (b : Bool) : Byte :=
  if b then v ||| (1#8 <<< i) else v &&& ~~~(1#8 <<< i)

end Sys2Proof.Machine
end

