-- ==== Sys2Proof/Machine/Bus.lean ====
section
/-! DEFINITION. The two lines: the engine's latches, the environment's hold bits, the level of a line, contention, and
the record of events and levels (10_state.md R22, R26 to R31, R44). On them the three micro-steps, with the environment
acting before each (40_line_and_timing.md R110 to R112), the line primitives (R113, R114), and the GPIO part of reset
(70_reset_and_hazards.md R250). -/

namespace Sys2Proof.Machine

/-- The engine's two latch bits of a line (R26): `dir` 1 is output; `out` is the level driven, or the pull-up enable. -/
structure Latch where
  dir : Bool
  out : Bool
  deriving DecidableEq, Repr, Inhabited

/-- Which latch bit a GPIO write sets (R110). -/
inductive LatchBit where
  | dir
  | out
  deriving DecidableEq, Repr

/-- One event per micro-step (R44): `W(l, f, v)`, `R(l, v)`, `D(n)`. -/
inductive Event where
  | write (l : Line) (f : LatchBit) (v : Bool)
  | read (l : Line) (v : Bool)
  | delay (us : Half)
  deriving DecidableEq, Repr

/-- A point of the wire trace (R44): an event or an environment change, with both lines' levels after it. -/
inductive Point where
  | event (e : Event) (levels : PerLine Bool)
  | env (hold : PerLine Bool) (levels : PerLine Bool)
  deriving DecidableEq, Repr

/-- The event at a point, if it is one. -/
def Point.event? : Point → Option Event
  | .event e _ => some e
  | .env _ _ => none

/-- Both lines' levels at a point. -/
def Point.levels : Point → PerLine Bool
  | .event _ v => v
  | .env _ v => v

/-- The lines as both agents act on them. `plan` and `instant` are the model's own fields (log entries 3 and 4). -/
structure Bus where
  /-- `DIR[l]`, `OUT[l]` (R26). -/
  latch : PerLine Latch
  /-- `EXT[l]`: true when another device holds the line low (R22). -/
  ext : PerLine Bool
  /-- The model flag `CONTENTION` (R29), never cleared. -/
  contention : Bool
  /-- The wire trace, oldest first (R44). -/
  trace : List Point
  /-- The environment's moves named ahead: one list of changes of `EXT` per gap between micro-steps. -/
  plan : List (List (PerLine Bool))
  /-- The instants passed; free values are applied to it. -/
  instant : Nat
  deriving DecidableEq, Repr

/-- `level(l)` from its latch, its hold bit and the value drawn under contention (R28). -/
def lineLevel (k : Latch) (held draw : Bool) : Bool :=
  if k.dir && !k.out then false
  else if held && k.dir then draw
  else if held then false
  else true

/-- The level of line `l` at instant `t` (R28, R29). -/
def levelAt (k : PerLine Latch) (ext : PerLine Bool) (t : Nat) (l : Line) : Bool :=
  lineLevel (k.get l) (ext.get l) (Config.contentionLevel t l)

/-- Both lines' levels at instant `t`. -/
def levelsAt (k : PerLine Latch) (ext : PerLine Bool) (t : Nat) : PerLine Bool where
  sda := levelAt k ext t .sda
  scl := levelAt k ext t .scl

/-- A line driven high while the environment holds it low (R29). -/
def lineClash (k : Latch) (held : Bool) : Bool := k.dir && k.out && held

/-- Contention on either line (R29). -/
def clash (k : PerLine Latch) (ext : PerLine Bool) : Bool :=
  lineClash k.sda ext.sda || lineClash k.scl ext.scl

/-- The level of line `l` now. -/
def Bus.level (b : Bus) (l : Line) : Bool := levelAt b.latch b.ext b.instant l

/-- The event history `H` (R44): the events of the wire trace, in order. -/
def Bus.history (b : Bus) : List Event := b.trace.filterMap Point.event?

/-- The environment's changes in the next gap: the plan's next list, or a free value past its end (R22). -/
def Bus.moves (b : Bus) : List (PerLine Bool) :=
  match b.plan with
  | m :: _ => m
  | [] => Config.envMoves b.instant

/-- The points of a list of environment changes, one instant each. -/
def envPoints (k : PerLine Latch) : Nat → List (PerLine Bool) → List Point
  | _, [] => []
  | t, h :: rest => .env h (levelsAt k h (t + 1)) :: envPoints k (t + 1) rest

/-- The hold bits after a list of changes. -/
def lastHold (ext : PerLine Bool) : List (PerLine Bool) → PerLine Bool
  | [] => ext
  | h :: rest => lastHold h rest

/-- The gap before a micro-step: the environment makes its changes, one after another (R22). The engine's latches stay.
Contention is noted after each change; what stood before the first was noted when it arose, save at the start of reset
(DESIGN CHOICE, log entry 20). -/
def Bus.gap (b : Bus) : Bus where
  latch := b.latch
  ext := lastHold b.ext b.moves
  contention := b.contention || b.moves.any (clash b.latch)
  trace := b.trace ++ envPoints b.latch b.instant b.moves
  plan := b.plan.tail
  instant := b.instant + b.moves.length + 1

/-- The end of a micro-step: its event is recorded with the levels it leaves, and contention is noted (R29, R44). -/
def Bus.record (e : Event) (b : Bus) : Bus where
  latch := b.latch
  ext := b.ext
  contention := b.contention || clash b.latch b.ext
  trace := b.trace ++ [.event e (levelsAt b.latch b.ext (b.instant + 1))]
  plan := b.plan
  instant := b.instant + 1

/-- A latch with one bit set to `v` (R110). -/
def Latch.put (k : Latch) (f : LatchBit) (v : Bool) : Latch :=
  match f with
  | .dir => { k with dir := v }
  | .out => { k with out := v }

/-- `b` with latch bit `f` of line `l` set to `v`; every other latch bit keeps its value (R62). -/
def Bus.putLatch (l : Line) (f : LatchBit) (v : Bool) (b : Bus) : Bus :=
  { b with latch := b.latch.set l ((b.latch.get l).put f v) }

/-- `GpioWrite(l, f, v)` (R110), with the environment's gap before it. -/
def Bus.gpioWrite (l : Line) (f : LatchBit) (v : Bool) (b : Bus) : Bus :=
  (b.gap.putLatch l f v).record (.write l f v)

/-- `GpioRead(l)` (R111), with the environment's gap before it. -/
def Bus.gpioRead (l : Line) (b : Bus) : Bool × Bus :=
  (b.gap.level l, b.gap.record (.read l (b.gap.level l)))

/-- `Delay(n)` (R112): one event; what the environment does meanwhile is what it does in the gaps around it. -/
def Bus.delay (us : Half) (b : Bus) : Bus := b.gap.record (.delay us)

/-- `DriveLow(l)` (R113). -/
def Bus.driveLow (l : Line) (b : Bus) : Bus := (b.gpioWrite l .dir true).gpioWrite l .out false

/-- `Release(l)` (R114). -/
def Bus.release (l : Line) (b : Bus) : Bus := (b.gpioWrite l .dir false).gpioWrite l .out true

/-- The GPIO part of `Reset()` (R250), six events. -/
def Bus.resetSeq (b : Bus) : Bus :=
  (((b.gpioWrite .sda .dir true).gpioWrite .scl .dir true).release .scl).release .sda

/-- The lines before reset (R251), for given latches, hold bits and environment. `CONTENTION` is 0 here (R47), also
where a line already is driven high and held low: that clash is noted only if it still stands after some change or
event of reset (DESIGN CHOICE, log entry 20; R29 alone would set the flag at once). -/
def Bus.preReset (dir out ext : PerLine Bool) (plan : List (List (PerLine Bool))) : Bus where
  latch := { sda := { dir := dir.sda, out := out.sda }, scl := { dir := dir.scl, out := out.scl } }
  ext := ext
  contention := false
  trace := []
  plan := plan
  instant := 0

/-- The lines after construction, for given latches, hold bits and environment before it (R250, R251). -/
def Bus.construct (dir out ext : PerLine Bool) (plan : List (List (PerLine Bool))) : Bus :=
  (Bus.preReset dir out ext plan).resetSeq

/-- The lines after reset: the pre-reset values are left open (R251), and so is the environment (R22). -/
def Bus.reset : Bus := Bus.construct Config.gpioPreDir Config.gpioPreOut Config.extPre []

end Sys2Proof.Machine
end

