-- ==== Sys2Proof/Machine/Memory.lean ====
section
/-! DEFINITION. The buffer space as a list of written bytes in canonical form: indices strictly rising. A byte that is
not listed is unwritten and holds no value (20_memory.md R63, R64). -/

namespace Sys2Proof.Machine

/-- `MemRead(BUF, i, 1)` (R63): the byte at index `i`, or none where nothing has been written (R64). -/
def Memory.read : List Host.Cell → Nat → Option Byte
  | [], _ => none
  | (a, v) :: rest, i => if i = a then some v else Memory.read rest i

/-- `MemWrite(BUF, i, 1, v)` (R63), keeping the indices rising. -/
def Memory.write : List Host.Cell → Nat → Byte → List Host.Cell
  | [], i, v => [(i, v)]
  | (a, x) :: rest, i, v =>
    if i < a then (i, v) :: (a, x) :: rest
    else if i = a then (i, v) :: rest
    else (a, x) :: Memory.write rest i v

/-- The canonical form: indices strictly rising. -/
abbrev Memory.wf (m : List Host.Cell) : Prop := m.Pairwise fun c d => c.1 < d.1

/-- Every written byte is inside a buffer of `size` bytes (R63). -/
abbrev Memory.within (size : Nat) (m : List Host.Cell) : Prop := ∀ c ∈ m, c.1 < size

end Sys2Proof.Machine
end

