-- ==== Sys2Proof/Machine/State.lean ====
section
/-! DEFINITION. The machine's state (10_state.md), the reasons a step can stop (60_exceptions.md R236), and the state
after reset (R47, 70_reset_and_hazards.md R250). -/

namespace Sys2Proof.Machine

/-- `STATUS.RC` (R13, R37). -/
inductive ResultCode where
  | ok
  | nack
  | timeout
  | illegal
  deriving DecidableEq, Repr

/-- `STATUS.PH` (R38). -/
inductive Phase where
  | idle
  | active
  deriving DecidableEq, Repr

/-- An access the host makes between commands (R23). Widths are in bits, offsets in bytes (R61). -/
inductive HostAccess where
  | regWrite (offset width : Nat) (value : Word)
  | regRead (offset width : Nat)
  | bufWrite (index : Nat) (value : Byte)
  | bufRead (index : Nat)
  deriving DecidableEq, Repr

/-- What a host read returned. -/
inductive Reply where
  | reg (offset : Nat) (value : Word)
  | byte (index : Nat) (value : Byte)
  deriving DecidableEq, Repr

/-- The model fault of the spec (R64, R236). -/
inductive Fault where
  /-- `BUF_UNWRITTEN`: raised by `WRITE_MSG` and by a host buffer read at a byte nothing has written (R64). Safe: no
  claim holds of such a run. -/
  | bufUnwritten (index : Nat)
  deriving DecidableEq, Repr

/-- The refusals of the spec (R236), beside the host's own `notModelled`. -/
inductive Refusal where
  /-- An instruction with no meaning yet: no arm of this model raises it. Safe. -/
  | notModelled (mnemonic : String)
  /-- The configuration is refused (R9, R25): raised by every step of such a machine, as no engine exists. Safe. -/
  | configuration
  /-- A host register access that is not an aligned 32-bit one inside the map (R61): raised by the host port. Safe. -/
  | registerAccess (offset width : Nat)
  /-- A host buffer access at or above `BUF_SIZE` (R63): raised by the host port. Safe. -/
  | bufferIndex (index : Nat)
  deriving DecidableEq, Repr

/-- The machine. `cfg` is fixed for a run (R46, log entry 1); `host` and `replies` are the host agent's side (R23, log
entries 8 and 9). -/
structure State where
  /-- The parameters (R8). -/
  cfg : Params
  /-- Latches, hold bits, contention flag and wire trace (R22, R26, R29, R44). -/
  bus : Bus
  /-- `STATUS.RC` (R37). -/
  rc : ResultCode
  /-- `STATUS.TO` (R39). -/
  timedOut : Bool
  /-- `STATUS.PH` (R38). -/
  ph : Phase
  /-- `RXDATA.DATA` (R41). -/
  rxdata : Byte
  /-- `DELAY.US` (R35). -/
  delayUs : Half
  /-- `BUF` (R63, R64). -/
  buf : List Host.Cell
  /-- The accesses the host makes next, in order. -/
  host : List HostAccess
  /-- What the host's reads returned, oldest first. -/
  replies : List Reply
  deriving DecidableEq, Repr

/-- The event history `H` (R44). -/
def State.history (s : State) : List Event := s.bus.history

/-- The machine after construction with configuration `c` on lines `b` (R250). -/
def State.construct (c : Params) (b : Bus) : State where
  cfg := c
  bus := b
  rc := .ok
  timedOut := false
  ph := .idle
  rxdata := 0#8
  delayUs := c.delayReset
  buf := []
  host := []
  replies := []

/-- The machine right after reset, with the default parameters (R8, R47, R250). -/
def State.reset : State := State.construct Config.defaults Bus.reset

end Sys2Proof.Machine
end

