-- ==== Sys2Proof/Machine/Flags.lean ====
section
/-! DEFINITION. The fields of `STATUS`: result codes (10_state.md R37, 41_byte_transfer.md R143, 42_framing.md R188), the
phase (R38), the status word (R36), and which commands are legal (30_encoding.md R97). -/

namespace Sys2Proof.Machine

/-- The two bits of a result code (R13, R37). -/
def ResultCode.toBits : ResultCode → BitVec 2
  | .ok => 0#2
  | .nack => 1#2
  | .timeout => 2#2
  | .illegal => 3#2

/-- The phase bit (R36). -/
def Phase.toBit : Phase → BitVec 1
  | .idle => 0#1
  | .active => 1#1

/-- The `STATUS` register (R36): reserved bits 31:4, then `PH`, `TO` and `RC`. -/
def State.status (s : State) : Word :=
  (0#28 : BitVec 28) ++ s.ph.toBit ++ bitOfLevel s.timedOut ++ s.rc.toBits

/-- `ByteResult(ack, to)` for a byte the engine wrote, `p` being `STRETCH_TIMEOUT_IS_ERROR` (R143). -/
def byteResult (p ack t : Bool) : ResultCode :=
  if t && p then .timeout else if ack then .nack else .ok

/-- `ReadResult(to)` for a byte the engine read, and the result of a repeated start or a stop (R143, R186, R187). -/
def readResult (p t : Bool) : ResultCode :=
  if t && p then .timeout else .ok

/-- A running result and what comes after it: the first failure stays (R188). -/
def ResultCode.andThen (r next : ResultCode) : ResultCode :=
  match r with
  | .ok => next
  | .nack => .nack
  | .timeout => .timeout
  | .illegal => .illegal

/-- The phase in which a command is legal, if it matters (R97). -/
def requiredPhase : Instr → Option Phase
  | .driveLow _ => none
  | .release _ => none
  | .sample _ => none
  | .halfDelay => none
  | .setDelay _ => none
  | .start => some .idle
  | .rstart => some .active
  | .stop => some .active
  | .writeByte _ => some .active
  | .readByte _ => some .active
  | .writeMsg _ _ => some .idle
  | .readMsg _ _ => some .idle

/-- `Legal(c, PH)` (R97), with the further condition `LEN ≤ BUF_SIZE` of a message. -/
def legal (i : Instr) (ph : Phase) (bufSize : Nat) : Bool :=
  (match requiredPhase i with
    | none => true
    | some p => ph == p) && i.fits bufSize

end Sys2Proof.Machine
end

