-- ==== Sys2Proof/Machine/Ops.lean ====
section
/-! DEFINITION. The named operations the commands are made of: the line layer (40_line_and_timing.md R113 to R116), the
clock-stretch wait (41_byte_transfer.md R140), one byte out and one byte in (R141, R142), the condition sequences
(42_framing.md R180 to R182), and the command cycle with `reject()` (30_encoding.md R95, R96). The engine has no
exceptions (60_exceptions.md R220), so there is none to take: `reject` is the one operation an illegal word goes to. -/

namespace Sys2Proof.Machine

/-- What a command answers. -/
abbrev Answer := Host.Outcome State Fault Refusal

/-- `DriveLow(l)` (R113). -/
def driveLow (l : Line) (s : State) : State := { s with bus := s.bus.driveLow l }

/-- `Release(l)` (R114). -/
def release (l : Line) (s : State) : State := { s with bus := s.bus.release l }

/-- `Sample(l)` (R115). -/
def sample (l : Line) (s : State) : Bool × State :=
  ((s.bus.gpioRead l).1, { s with bus := (s.bus.gpioRead l).2 })

/-- `HalfDelay()` (R116), reading `DELAY.US` at this micro-step. -/
def halfDelay (s : State) : State := { s with bus := s.bus.delay s.delayUs }

/-- Put level `b` on SDA: `release` for 1, `driveLow` for 0 (R103). -/
def setSda (b : Bool) (s : State) : State := if b then release .sda s else driveLow .sda s

/-- `WaitSclHigh()` with `n` samples left (R140). -/
def waitSclHighFor : Nat → State → Bool × State
  | 0, s => (true, { s with timedOut := true })
  | n + 1, s =>
    if (sample .scl s).1 then (false, (sample .scl s).2) else waitSclHighFor n (sample .scl s).2

/-- `WaitSclHigh()` (R140): at most `STRETCH_POLLS` samples; true when the wait timed out. -/
def waitSclHigh (s : State) : Bool × State := waitSclHighFor s.cfg.stretchPolls s

/-- The rising half of a clock: `Release(SCL)`, the wait, `HalfDelay()` (R141, R142, R181, R182). -/
def raiseScl (s : State) : Bool × State :=
  let w := waitSclHigh (release .scl s)
  (w.1, halfDelay w.2)

/-- One written bit (R141, the loop body). -/
def sendBit (b : Bool) (s : State) : Bool × State :=
  raiseScl (halfDelay (setSda b (halfDelay (driveLow .scl s))))

/-- Bits `n-1` down to 0 of `d` (R141, the loop), `t` being the timeout bit so far. -/
def sendBits (d : Byte) : Nat → Bool → State → Bool × State
  | 0, t, s => (t, s)
  | n + 1, t, s =>
    let r := sendBit (d.getLsbD n) s
    sendBits d n (t || r.1) r.2

/-- What `WriteByteCore` returns (R141), and the state it leaves. -/
structure Written where
  ack : Bool
  timedOut : Bool
  state : State
  deriving DecidableEq, Repr

/-- `WriteByteCore(d)` (R141). -/
def writeByteCore (d : Byte) (s : State) : Written :=
  let b := sendBits d 8 false s
  let c := raiseScl (halfDelay (release .sda (driveLow .scl b.2)))
  let a := sample .sda c.2
  { ack := a.1, timedOut := b.1 || c.1, state := driveLow .scl a.2 }

/-- What `ReadByteCore` returns (R142), and the state it leaves. -/
structure ReadIn where
  value : Byte
  timedOut : Bool
  state : State
  deriving DecidableEq, Repr

/-- Bits `n-1` down to 0 clocked in (R142, the loop), onto the byte `v` and timeout bit so far. -/
def recvBits : Nat → Byte → Bool → State → ReadIn
  | 0, v, t, s => { value := v, timedOut := t, state := s }
  | n + 1, v, t, s =>
    let c := raiseScl (halfDelay (driveLow .scl s))
    let b := sample .sda c.2
    recvBits n (setBit v n b.1) (t || c.1) b.2

/-- `ReadByteCore(a)` (R142). -/
def readByteCore (a : Ack) (s : State) : ReadIn :=
  let b := recvBits 8 0#8 false (release .sda s)
  let c := raiseScl (halfDelay (setSda (ackLevel a) (driveLow .scl b.state)))
  { value := b.value, timedOut := b.timedOut || c.1, state := driveLow .scl c.2 }

/-- `StartSeq()` (R180). -/
def startSeq (s : State) : State := driveLow .scl (halfDelay (driveLow .sda s))

/-- `RStartSeq()` (R181). -/
def rstartSeq (s : State) : Bool × State :=
  let c := raiseScl (halfDelay (release .sda s))
  (c.1, driveLow .scl (halfDelay (driveLow .sda c.2)))

/-- `StopSeq()` (R182). -/
def stopSeq (s : State) : Bool × State :=
  let c := raiseScl (halfDelay (driveLow .sda s))
  (c.1, halfDelay (release .sda c.2))

/-- `s` with the buffer replaced by `m`. -/
def setBuf (m : List Host.Cell) (s : State) : State := { s with buf := m }

/-- `MemWrite(BUF, i, 1, v)` (R63), by the engine or by the host. -/
def storeByte (i : Nat) (v : Byte) (s : State) : State := setBuf (Memory.write s.buf i v) s

/-- `reject()` (R96): `RC` and `TO` are written, and nothing else. -/
def reject (s : State) : State := { s with rc := .illegal, timedOut := false }

/-- The last act of every legal command: it writes `STATUS.RC` (R37, R95). -/
def finish (r : ResultCode) (s : State) : State := { s with rc := r }

/-- The first act of every legal command: `STATUS.TO <- 0` (R39, R95). -/
def clearTimeout (s : State) : State := { s with timedOut := false }

/-- The command cycle after decoding (R95): rejected where not legal, else `TO` is cleared and the command runs. -/
def issue (i : Instr) (body : State → Answer) (s : State) : Answer :=
  if legal i s.ph s.cfg.bufSize then body (clearTimeout s) else .next (reject s)

end Sys2Proof.Machine
end

