-- ==== Sys2Proof/Machine/ByteCommands.lean ====
section
/-! DEFINITION. The byte commands (41_byte_transfer.md section 2). -/

namespace Sys2Proof.Machine

/-- `WRITE_BYTE d` (R150). -/
def execWriteByte (d : Byte) (s : State) : Answer :=
  issue (.writeByte d)
    (fun s =>
      let w := writeByteCore d s
      .next (finish (byteResult s.cfg.timeoutIsError w.ack w.timedOut)
        { w.state with rxdata := byteOfLevel w.ack })) s

/-- `READ_BYTE a` (R151). -/
def execReadByte (a : Ack) (s : State) : Answer :=
  issue (.readByte a)
    (fun s =>
      let r := readByteCore a s
      .next (finish (readResult s.cfg.timeoutIsError r.timedOut) { r.state with rxdata := r.value })) s

end Sys2Proof.Machine
end

