-- ==== Sys2Proof/Machine/Framing.lean ====
section
/-! DEFINITION. The condition commands (42_framing.md section 2). -/

namespace Sys2Proof.Machine

/-- `START` (R185). -/
def execStart (s : State) : Answer :=
  issue .start (fun s => .next (finish .ok { startSeq s with ph := .active })) s

/-- `RSTART` (R186). -/
def execRstart (s : State) : Answer :=
  issue .rstart
    (fun s => .next (finish (readResult s.cfg.timeoutIsError (rstartSeq s).1) (rstartSeq s).2)) s

/-- `STOP` (R187). -/
def execStop (s : State) : Answer :=
  issue .stop
    (fun s =>
      .next (finish (readResult s.cfg.timeoutIsError (stopSeq s).1)
        { (stopSeq s).2 with ph := .idle })) s

end Sys2Proof.Machine
end

