-- ==== Sys2Proof/Machine/LineCommands.lean ====
section
/-! DEFINITION. The line and delay commands (40_line_and_timing.md section 3). -/

namespace Sys2Proof.Machine

/-- `DRIVE_LOW L` (R120). -/
def execDriveLow (l : Line) (s : State) : Answer :=
  issue (.driveLow l) (fun s => .next (finish .ok (driveLow l s))) s

/-- `RELEASE L` (R121). -/
def execRelease (l : Line) (s : State) : Answer :=
  issue (.release l) (fun s => .next (finish .ok (release l s))) s

/-- `SAMPLE L` (R122). -/
def execSample (l : Line) (s : State) : Answer :=
  issue (.sample l)
    (fun s => .next (finish .ok { (sample l s).2 with rxdata := byteOfLevel (sample l s).1 })) s

/-- `HALF_DELAY` (R123). -/
def execHalfDelay (s : State) : Answer :=
  issue .halfDelay (fun s => .next (finish .ok (halfDelay s))) s

/-- `SET_DELAY n` (R124). -/
def execSetDelay (us : Half) (s : State) : Answer :=
  issue (.setDelay us) (fun s => .next (finish .ok { s with delayUs := us })) s

end Sys2Proof.Machine
end

