-- ==== Sys2Proof/Machine/Messages.lean ====
section
/-! DEFINITION. The message commands (42_framing.md section 3): the source's `writeMessage` and `readMessage`. -/

namespace Sys2Proof.Machine

/-- Where a message stands: its running result (R188) and the state, or the model fault it met. -/
inductive Progress where
  | running (r : ResultCode) (s : State)
  | stopped (f : Fault)
  deriving DecidableEq, Repr

/-- The address byte after a start (R101, R190, R191): the result of the byte and the state it leaves. -/
def openMessage (addr : Addr7) (rw : Direction) (s : State) : ResultCode × State :=
  let w := writeByteCore (addressByte addr rw) (startSeq s)
  (byteResult s.cfg.timeoutIsError w.ack w.timedOut, w.state)

/-- The payload loop of `WRITE_MSG` (R190): `n` bytes left, the next at index `i`, the running result `r`. -/
def sendPayload : Nat → Nat → ResultCode → State → Progress
  | 0, _, r, s => .running r s
  | n + 1, i, r, s =>
    match r with
    | .ok =>
      match Memory.read s.buf i with
      | none => .stopped (.bufUnwritten i)
      | some d =>
        let w := writeByteCore d s
        sendPayload n (i + 1) (byteResult s.cfg.timeoutIsError w.ack w.timedOut) w.state
    | .nack => .running .nack s
    | .timeout => .running .timeout s
    | .illegal => .running .illegal s

/-- The payload loop of `READ_MSG` (R191): it never stops early, and NACKs only the last byte. -/
def recvPayload : Nat → Nat → ResultCode → State → ResultCode × State
  | 0, _, r, s => (r, s)
  | n + 1, i, r, s =>
    let b := readByteCore (ackFor n) s
    recvPayload n (i + 1) (r.andThen (readResult s.cfg.timeoutIsError b.timedOut))
      (storeByte i b.value b.state)

/-- The end of a message: the stop, whose timeout counts only if all before it was `OK`, then `RC` (R188). -/
def closeMessage (r : ResultCode) (s : State) : State :=
  finish (r.andThen (readResult s.cfg.timeoutIsError (stopSeq s).1)) (stopSeq s).2

/-- A message's answer: the stop and the result, or the model fault its payload met (R64). -/
def answerOf : Progress → Answer
  | .running r s => .next (closeMessage r s)
  | .stopped f => .fault f

/-- `WRITE_MSG addr, len` (R190). -/
def execWriteMsg (addr : Addr7) (len : Half) (s : State) : Answer :=
  issue (.writeMsg addr len)
    (fun s =>
      let a := openMessage addr .write s
      answerOf (sendPayload len.toNat 0 a.1 a.2)) s

/-- The payload of `READ_MSG` after the address byte (R191): read only when the address byte's result is `OK`. -/
def readPayload (len : Nat) (r : ResultCode) (s : State) : ResultCode × State :=
  match r with
  | .ok => recvPayload len 0 .ok s
  | .nack => (.nack, s)
  | .timeout => (.timeout, s)
  | .illegal => (.illegal, s)

/-- `READ_MSG addr, len` (R191). -/
def execReadMsg (addr : Addr7) (len : Half) (s : State) : Answer :=
  issue (.readMsg addr len)
    (fun s =>
      let a := openMessage addr .read s
      let p := readPayload len.toNat a.1 a.2
      .next (closeMessage p.1 p.2)) s

end Sys2Proof.Machine
end

