-- ==== Sys2Proof/Machine/Dispatch.lean ====
section
/-! DEFINITION. One arm per command of the opcode map (30_encoding.md R90): the `Execute(c)` of the command cycle. -/

namespace Sys2Proof.Machine

def exec (i : Instr) (s : State) : Host.Outcome State Fault Refusal :=
  match i with
  | .driveLow l => Sys2Proof.Machine.execDriveLow l s
  | .release l => Sys2Proof.Machine.execRelease l s
  | .sample l => Sys2Proof.Machine.execSample l s
  | .halfDelay => Sys2Proof.Machine.execHalfDelay s
  | .setDelay us => Sys2Proof.Machine.execSetDelay us s
  | .start => Sys2Proof.Machine.execStart s
  | .rstart => Sys2Proof.Machine.execRstart s
  | .stop => Sys2Proof.Machine.execStop s
  | .writeByte d => Sys2Proof.Machine.execWriteByte d s
  | .readByte a => Sys2Proof.Machine.execReadByte a s
  | .writeMsg addr len => Sys2Proof.Machine.execWriteMsg addr len s
  | .readMsg addr len => Sys2Proof.Machine.execReadMsg addr len s

end Sys2Proof.Machine
end

