-- ==== Sys2Proof/Machine/HostPort.lean ====
section
/-! DEFINITION. The host's side (10_state.md R23, R42, 20_memory.md R61 to R65): the register map, the command port and
the buffer accesses. -/

namespace Sys2Proof.Machine

/-- The registers of the host register space (R32, R61). -/
inductive HostReg where
  | cmd
  | status
  | rxdata
  | delay
  deriving DecidableEq, Repr

/-- The register an access reaches: an aligned 32-bit access inside the map, or none (R61). -/
def hostReg (offset width : Nat) : Option HostReg :=
  if width = 32 then
    if offset = 0x00 then some .cmd
    else if offset = 0x04 then some .status
    else if offset = 0x08 then some .rxdata
    else if offset = 0x0C then some .delay
    else none
  else none

/-- The value a host read returns (R32, R35, R36, R41, R42); reserved bits read 0 (R40). -/
def readReg (s : State) : HostReg → Word
  | .cmd => 0#32
  | .status => s.status
  | .rxdata => s.rxdata.zeroExtend 32
  | .delay => s.delayUs.zeroExtend 32

/-- A write of `w` to `CMD` (R42, R95): the command it encodes runs to its end, or the word is rejected. -/
def command (w : Word) (s : State) : Answer :=
  match decode w with
  | .command i => exec i s
  | .illegal _ => .next (reject s)

/-- A host write to a register: only `CMD` acts; writes to the others are ignored (R65). -/
def writeReg (r : HostReg) (w : Word) (s : State) : Answer :=
  match r with
  | .cmd => command w s
  | .status => .next s
  | .rxdata => .next s
  | .delay => .next s

/-- One host access (R61, R63 to R65), `s` being the state with that access taken off the queue. -/
def hostAccess (a : HostAccess) (s : State) : Answer :=
  match a with
  | .regWrite offset width value =>
    match hostReg offset width with
    | some r => writeReg r value s
    | none => .refused (.registerAccess offset width)
  | .regRead offset width =>
    match hostReg offset width with
    | some r => .next { s with replies := s.replies ++ [.reg offset (readReg s r)] }
    | none => .refused (.registerAccess offset width)
  | .bufWrite index value =>
    if index < s.cfg.bufSize then .next (storeByte index value s)
    else .refused (.bufferIndex index)
  | .bufRead index =>
    if index < s.cfg.bufSize then
      match Memory.read s.buf index with
      | some v => .next { s with replies := s.replies ++ [.byte index v] }
      | none => .fault (.bufUnwritten index)
    else .refused (.bufferIndex index)

/-- With no host access waiting the engine holds its state (R235) and only the environment acts (R22). -/
def idle (s : State) : State := { s with bus := s.bus.gap }

/-- The queue with a write of command word `w` put first. -/
def queueCommand (w : Word) (s : State) : State := { s with host := .regWrite 0x00 32 w :: s.host }

/-- The command word whose low `nbits` bits are those of `w`, the bits above them zero. -/
def tableWord (nbits w : Nat) : Word := BitVec.ofNat 32 (w % 2 ^ nbits)

end Sys2Proof.Machine
end

