-- ==== Sys2Proof/Machine/Step.lean ====
section
/-! DEFINITION. One step of the machine: the host's next access, a whole command with it where it writes `CMD`, or with
none waiting the environment alone (10_state.md R20 to R23, log entries 7 and 8). -/

namespace Sys2Proof.Machine

/-- One step. A refused configuration has no run (00_scope.md R9). -/
def step (s : State) : Host.Outcome State Fault Refusal :=
  if s.cfg.ok then
    match s.host with
    | [] => .next (idle s)
    | a :: rest => hostAccess a { s with host := rest }
  else .refused .configuration

/-- `s` with the host about to write the command word `w` to `CMD`, which is how an instruction comes to run (R42). -/
def State.withFetchWord (s : State) (nbits w : Nat) : State := queueCommand (tableWord nbits w) s

end Sys2Proof.Machine
end

