-- ==== Sys2Proof/Machine/Assembler.lean ====
section
/-! DEFINITION. The assembler syntax (30_encoding.md R98) and the pseudo-instruction `PROBE` (R99): from a line of text
to a command word. No part of the machine reads it. -/

namespace Sys2Proof.Machine

/-- What the assembler makes of one line. -/
inductive Assembled where
  /-- A line with nothing but white space or a comment. -/
  | blank
  | word (w : Word)
  /-- R98: an assembly error; no word is emitted. -/
  | error
  deriving DecidableEq, Repr

/-- The value of a hexadecimal digit. -/
def digitValue (c : Char) : Option Nat :=
  if '0' ≤ c ∧ c ≤ '9' then some (c.toNat - '0'.toNat)
  else if 'a' ≤ c ∧ c ≤ 'f' then some (c.toNat - 'a'.toNat + 10)
  else if 'A' ≤ c ∧ c ≤ 'F' then some (c.toNat - 'A'.toNat + 10)
  else none

/-- Digits to a number in a base, onto what has been read. -/
def numberFrom (base : Nat) : Nat → List Char → Option Nat
  | acc, [] => some acc
  | acc, c :: rest =>
    match digitValue c with
    | some v => if v < base then numberFrom base (acc * base + v) rest else none
    | none => none

/-- A number: decimal, or hexadecimal with `0x` (R98). -/
def parseNumber : List Char → Option Nat
  | [] => none
  | ['0', 'x'] => none
  | '0' :: 'x' :: rest => numberFrom 16 0 rest
  | c :: rest => numberFrom 10 0 (c :: rest)

/-- White space inside a line. -/
def isBlank (c : Char) : Bool := c = ' ' || c = '\t' || c = '\r' || c = '\n'

/-- A line without its comment: a `;` starts one (R98). -/
def dropComment : List Char → List Char
  | [] => []
  | c :: rest => if c = ';' then [] else c :: dropComment rest

/-- Without leading white space. -/
def trimLeft : List Char → List Char
  | [] => []
  | c :: rest => if isBlank c then trimLeft rest else c :: rest

/-- Without white space at either end. -/
def trim (cs : List Char) : List Char := (trimLeft (trimLeft cs).reverse).reverse

/-- The text up to the first white space, and the text after it. -/
def splitWord : List Char → List Char × List Char
  | [] => ([], [])
  | c :: rest => if isBlank c then ([], rest) else (c :: (splitWord rest).1, (splitWord rest).2)

/-- The pieces between commas. -/
def splitCommas : List Char → List (List Char)
  | [] => [[]]
  | c :: rest =>
    match splitCommas rest with
    | [] => [[]]
    | p :: ps => if c = ',' then [] :: p :: ps else (c :: p) :: ps

/-- The operands of a line: none when the text is blank. -/
def operands (cs : List Char) : List (List Char) :=
  match trim cs with
  | [] => []
  | t => (splitCommas t).map trim

/-- `SDA` or `SCL`. -/
def parseLine (cs : List Char) : Option Line :=
  if cs = "SDA".toList then some .sda else if cs = "SCL".toList then some .scl else none

/-- `ACK` or `NACK`. -/
def parseAck (cs : List Char) : Option Ack :=
  if cs = "ACK".toList then some .ack else if cs = "NACK".toList then some .nack else none

/-- A number that fits `n` bits; out of range is an error (R98). -/
def parseBits (n : Nat) (cs : List Char) : Option (BitVec n) :=
  match parseNumber cs with
  | some v => if v < 2 ^ n then some (BitVec.ofNat n v) else none
  | none => none

/-- A command whose only operand is a line. -/
def asmLine (mk : Line → Instr) : List (List Char) → Option Instr
  | [a] => (parseLine a).map mk
  | _ => none

/-- A command with no operand. -/
def asmNone (i : Instr) : List (List Char) → Option Instr
  | [] => some i
  | _ => none

/-- A command whose only operand is a number of `n` bits. -/
def asmBits (n : Nat) (mk : BitVec n → Instr) : List (List Char) → Option Instr
  | [a] => (parseBits n a).map mk
  | _ => none

/-- `READ_BYTE`. -/
def asmAck (mk : Ack → Instr) : List (List Char) → Option Instr
  | [a] => (parseAck a).map mk
  | _ => none

/-- A message command: address, then length. -/
def asmMsg (mk : Addr7 → Half → Instr) : List (List Char) → Option Instr
  | [a, b] =>
    match parseBits 7 a, parseBits 16 b with
    | some addr, some len => some (mk addr len)
    | _, _ => none
  | _ => none

/-- The command a mnemonic and its operands stand for (R98, R99). -/
def asmCommand (mnemonic : List Char) (ops : List (List Char)) : Option Instr :=
  if mnemonic = "DRIVE_LOW".toList then asmLine .driveLow ops
  else if mnemonic = "RELEASE".toList then asmLine .release ops
  else if mnemonic = "SAMPLE".toList then asmLine .sample ops
  else if mnemonic = "HALF_DELAY".toList then asmNone .halfDelay ops
  else if mnemonic = "SET_DELAY".toList then asmBits 16 .setDelay ops
  else if mnemonic = "START".toList then asmNone .start ops
  else if mnemonic = "RSTART".toList then asmNone .rstart ops
  else if mnemonic = "STOP".toList then asmNone .stop ops
  else if mnemonic = "WRITE_BYTE".toList then asmBits 8 .writeByte ops
  else if mnemonic = "READ_BYTE".toList then asmAck .readByte ops
  else if mnemonic = "WRITE_MSG".toList then asmMsg .writeMsg ops
  else if mnemonic = "READ_MSG".toList then asmMsg .readMsg ops
  else if mnemonic = "PROBE".toList then asmBits 7 (fun addr => .writeMsg addr 0#16) ops
  else none

/-- One line of assembly (R98). -/
def assemble (line : String) : Assembled :=
  match trim (dropComment line.toList) with
  | [] => .blank
  | text =>
    match asmCommand (splitWord text).1 (operands (splitWord text).2) with
    | some i => .word (encode i)
    | none => .error

end Sys2Proof.Machine
end

