-- ==== Sys2Proof/Machine/Wire.lean ====
section
/-! DEFINITION. Reading the wire: the symbols a reader of the wire trace recognises (30_encoding.md R100 to R102), and
the lower bound the delay events give on time (70_reset_and_hazards.md R271). The engine never reads any of this. -/

namespace Sys2Proof.Machine

/-- A wire symbol (R100): S, Sr, P, a data bit, A, N. -/
inductive Symbol where
  | start
  | rstart
  | stop
  | bit (b : Bool)
  | ack
  | nack
  deriving DecidableEq, Repr

/-- Where a reader of the wire stands: the levels it saw last, whether a transaction is open, the SDA level of the
running high phase of SCL while SDA has not changed in it, and the bits read since the last start, counted to nine. -/
structure Reader where
  levels : PerLine Bool
  inside : Bool
  high : Option Bool
  count : Nat
  deriving DecidableEq, Repr

/-- The symbol of the `count`-th bit after a start: eight data bits, then the acknowledgment (R100, R102). -/
def bitSymbol (count : Nat) (b : Bool) : Symbol :=
  if count = 8 then (if b then .nack else .ack) else .bit b

/-- SCL falls: the bit of the high phase ends, if a transaction is open and SDA did not change in it (R100). -/
def Reader.fall (r : Reader) (next : PerLine Bool) : Reader × List Symbol :=
  match r.inside, r.high with
  | true, some b =>
    ({ levels := next, inside := true, high := none, count := (r.count + 1) % 9 }, [bitSymbol r.count b])
  | true, none => ({ r with levels := next, high := none }, [])
  | false, _ => ({ r with levels := next, high := none }, [])

/-- SDA changes while SCL stays high: falling is a start, repeated when a transaction is open; rising is a stop (R100,
G1). -/
def Reader.edge (r : Reader) (next : PerLine Bool) : Reader × List Symbol :=
  if next.sda then ({ levels := next, inside := false, high := none, count := 0 }, [.stop])
  else ({ levels := next, inside := true, high := none, count := 0 }, [if r.inside then .rstart else .start])

/-- The reader at the next pair of levels. -/
def Reader.step (r : Reader) (next : PerLine Bool) : Reader × List Symbol :=
  match r.levels.scl, next.scl with
  | false, false => ({ r with levels := next }, [])
  | false, true => ({ r with levels := next, high := some next.sda }, [])
  | true, false => r.fall next
  | true, true => if r.levels.sda = next.sda then ({ r with levels := next }, []) else r.edge next

/-- The symbols read from a list of levels. -/
def Reader.read (r : Reader) : List (PerLine Bool) → List Symbol
  | [] => []
  | v :: rest => (r.step v).2 ++ Reader.read (r.step v).1 rest

/-- The symbols on the wire over some points of the trace, for a reader standing at `r` (R100). -/
def wireSymbols (r : Reader) (points : List Point) : List Symbol := r.read (points.map Point.levels)

/-- A reader before any transaction, on an idle bus (R31). -/
def Reader.idle : Reader where
  levels := { sda := true, scl := true }
  inside := false
  high := none
  count := 0

/-- A reader inside a transaction, where a start or a byte has just ended, both lines low (R183). -/
def Reader.open : Reader where
  levels := { sda := false, scl := false }
  inside := true
  high := none
  count := 0

/-- The data bits of a byte, most significant first (R67). -/
def byteSymbols (d : Byte) : List Symbol :=
  [7, 6, 5, 4, 3, 2, 1, 0].map fun i => .bit (d.getLsbD i)

/-- The least time an event takes, in microseconds: `D(n)` takes at least `n`, the model has no other time (R112). -/
def Event.micros : Event → Nat
  | .write _ _ _ => 0
  | .read _ _ => 0
  | .delay us => us.toNat

/-- The least time a list of events takes. -/
def historyMicros (h : List Event) : Nat := (h.map Event.micros).sum

end Sys2Proof.Machine
end

