-- ==== Sys2Proof/Safety.lean ====
section
/-! DEFINITION. The terms claims use: what counts as a safe state, what stays the same over a command, and the event
sequences of the spec's procedures (40_line_and_timing.md R113 to R116, 41_byte_transfer.md R140 to R142, 42_framing.md
R180 to R182, 95_test_vectors.md section 0), written as events and not through the machine. -/

namespace Sys2Proof.Machine

/-- The invariant of the machine: the buffer is in canonical form and inside `BUF_SIZE` (R63), and contention present is
contention noted (R29). -/
abbrev State.Inv (s : State) : Prop :=
  Memory.wf s.buf ∧ Memory.within s.cfg.bufSize s.buf ∧
    (clash s.bus.latch s.bus.ext = true → s.bus.contention = true)

/-- Both lines released with pull-up (R27, R192). -/
abbrev State.Released (s : State) : Prop :=
  s.bus.latch = { sda := { dir := false, out := true }, scl := { dir := false, out := true } }

/-- No device holds a line now, and the environment's plan leaves the next `n` gaps empty: `QUIET` (95 section 0). -/
abbrev State.QuietFor (n : Nat) (s : State) : Prop :=
  s.bus.ext = { sda := false, scl := false } ∧ s.bus.plan.take n = List.replicate n []

/-- SCL is held low, SDA is not, and the plan leaves the next `n` gaps empty: `HOLD-SCL` (95 section 0). -/
abbrev State.SclHeldFor (n : Nat) (s : State) : Prop :=
  s.bus.ext = { sda := false, scl := true } ∧ s.bus.plan.take n = List.replicate n []

/-- SDA is held low, SCL is not, and the plan leaves the next `n` gaps empty. -/
abbrev State.SdaHeldFor (n : Nat) (s : State) : Prop :=
  s.bus.ext = { sda := true, scl := false } ∧ s.bus.plan.take n = List.replicate n []

/-- No device holds a line now, and the environment then does what `script` says, gap by gap. -/
abbrev State.Scripted (script : List (List (PerLine Bool))) (s : State) : Prop :=
  s.bus.ext = { sda := false, scl := false } ∧ s.bus.plan.take script.length = script

/-- `ACK` (95 section 0) over the 92 gaps of an unstretched written byte: SDA is pulled low just after event 84. -/
def ackScript : List (List (PerLine Bool)) :=
  List.replicate 84 [] ++ [[{ sda := true, scl := false }]] ++ List.replicate 7 []

/-- `SEND(v)`'s bits `n-1` down to 0, from just after the `W(SCL,OUT,0)` that opens each to just before the next. -/
def sendBitsScript (v : Byte) : Nat → List (List (PerLine Bool))
  | 0 => []
  | n + 1 => [{ sda := !v.getLsbD n, scl := false }] :: (List.replicate 7 [] ++ sendBitsScript v n)

/-- `SEND(v)` (95 section 0) over the 77 gaps of an unstretched read byte. -/
def sendScript (v : Byte) : List (List (PerLine Bool)) :=
  List.replicate 4 [] ++ sendBitsScript v 8 ++ [[{ sda := false, scl := false }]] ++ List.replicate 8 []

/-- The level of a line by the wired-AND: low if the engine drives it low or a device holds it low, else high (R28,
where there is no contention). -/
def wiredAnd (k : Latch) (held : Bool) : Bool :=
  if k.dir = true ∧ k.out = false then false else !held

/-- A line driven high and held low (R29). -/
def Contended (k : Latch) (held : Bool) : Prop := k.dir = true ∧ k.out = true ∧ held = true

/-- Both agents' side of the lines: the engine's latches and the environment's hold bits. -/
structure Wires where
  latch : PerLine Latch
  ext : PerLine Bool
  deriving DecidableEq, Repr

/-- The wires of a bus. -/
def Bus.wires (b : Bus) : Wires where
  latch := b.latch
  ext := b.ext

/-- The wires after a point of the trace: a write sets its latch bit (R110), an environment change the hold bits (R22),
and nothing else changes either. -/
def Wires.after (w : Wires) : Point → Wires
  | .event (.write l .dir v) _ => { w with latch := w.latch.set l { dir := v, out := (w.latch.get l).out } }
  | .event (.write l .out v) _ => { w with latch := w.latch.set l { dir := (w.latch.get l).dir, out := v } }
  | .event (.read _ _) _ => w
  | .event (.delay _) _ => w
  | .env h _ => { w with ext := h }

/-- The wires after some points. -/
def Wires.afterAll (w : Wires) (ps : List Point) : Wires := ps.foldl Wires.after w

/-- Contention on either line. -/
def Wires.Clash (w : Wires) : Prop := ∃ l, Contended (w.latch.get l) (w.ext.get l)

/-- A point is true of the wires it leaves: without contention on a line, the level recorded, and the level a read of it
returned, are the wired-AND (R28, R111). -/
def Point.TrueOf (w : Wires) (p : Point) : Prop :=
  ∀ l, ¬ Contended (w.latch.get l) (w.ext.get l) →
    p.levels.get l = wiredAnd (w.latch.get l) (w.ext.get l) ∧
    ∀ v, p.event? = some (.read l v) → v = wiredAnd (w.latch.get l) (w.ext.get l)

/-- Every one of the points is true of the wires it leaves. -/
def Wires.TruePoints : Wires → List Point → Prop
  | _, [] => True
  | w, p :: ps => p.TrueOf (w.after p) ∧ (w.after p).TruePoints ps

/-- Some one of the points leaves contention. -/
def Wires.ClashIn : Wires → List Point → Prop
  | _, [] => False
  | w, p :: ps => (w.after p).Clash ∨ (w.after p).ClashIn ps

/-- Bytes `0` to `n-1` of the buffer have been written (R64, R254 step 6). -/
abbrev State.PayloadWritten (n : Nat) (s : State) : Prop := ∀ i < n, (Memory.read s.buf i).isSome = true

/-- What no command touches: the configuration (R46) and the host's side. -/
abbrev SameSetting (s t : State) : Prop := t.cfg = s.cfg ∧ t.host = s.host ∧ t.replies = s.replies

/-- Every byte of the buffer reads as before. -/
abbrev SameBuffer (s t : State) : Prop := ∀ a, Memory.read t.buf a = Memory.read s.buf a

/-- R97, the legality table: in which phase, and for which lengths, a command is legal. -/
def LegalNow : Instr → State → Prop
  | .driveLow _, _ => True
  | .release _, _ => True
  | .sample _, _ => True
  | .halfDelay, _ => True
  | .setDelay _, _ => True
  | .start, s => s.ph = .idle
  | .rstart, s => s.ph = .active
  | .stop, s => s.ph = .active
  | .writeByte _, s => s.ph = .active
  | .readByte _, s => s.ph = .active
  | .writeMsg _ len, s => s.ph = .idle ∧ len.toNat ≤ s.cfg.bufSize
  | .readMsg _ len, s => s.ph = .idle ∧ len.toNat ≤ s.cfg.bufSize

/-- R272, the most events a legal command makes, `n` being `STRETCH_POLLS`. -/
def mostEvents (n : Nat) : Instr → Nat
  | .driveLow _ => 2
  | .release _ => 2
  | .sample _ => 1
  | .halfDelay => 1
  | .setDelay _ => 0
  | .start => 5
  | .rstart => 11 + n
  | .stop => 9 + n
  | .writeByte _ => 83 + 9 * n
  | .readByte _ => 68 + 9 * n
  | .writeMsg _ len => 5 + (len.toNat + 1) * (83 + 9 * n) + 9 + n
  | .readMsg _ len => 5 + (83 + 9 * n) + len.toNat * (68 + 9 * n) + 9 + n

/-- R272, the fewest events a legal command makes. -/
def fewestEvents : Instr → Nat
  | .driveLow _ => 2
  | .release _ => 2
  | .sample _ => 1
  | .halfDelay => 1
  | .setDelay _ => 0
  | .start => 5
  | .rstart => 12
  | .stop => 10
  | .writeByte _ => 92
  | .readByte _ => 77
  | .writeMsg _ _ => 107
  | .readMsg _ _ => 107

/-- Is the event a half-cycle delay? -/
def Event.isDelay : Event → Bool
  | .delay _ => true
  | .write _ _ _ => false
  | .read _ _ => false

/-- Is the event a sample of line `l`? -/
def Event.isSample (l : Line) : Event → Bool
  | .read k _ => k == l
  | .write _ _ _ => false
  | .delay _ => false

/-- The events of `DriveLow(l)` (R113). -/
def lowEvents (l : Line) : List Event := [.write l .dir true, .write l .out false]

/-- The events of `Release(l)` (R114). -/
def releaseEvents (l : Line) : List Event := [.write l .dir false, .write l .out true]

/-- `<SDA b>` (95 section 0). -/
def sdaEvents (b : Bool) : List Event := if b then releaseEvents .sda else lowEvents .sda

/-- One clock-stretch wait (R140): samples of SCL that end at the first 1, or `polls` samples that all read 0, in which
case `to` is true. -/
def IsWait (polls : Nat) (es : List Event) (to' : Bool) : Prop :=
  (∃ k, k < polls ∧ es = List.replicate k (.read .scl false) ++ [.read .scl true] ∧ to' = false) ∨
    (es = List.replicate polls (.read .scl false) ∧ to' = true)

/-- SCL released, the wait `w`, a half cycle. -/
def raiseEvents (us : Half) (w : List Event) : List Event := releaseEvents .scl ++ w ++ [.delay us]

/-- A written bit `b` (R141, the loop body). -/
def writtenBit (us : Half) (b : Bool) (w : List Event) : List Event :=
  lowEvents .scl ++ [.delay us] ++ sdaEvents b ++ [.delay us] ++ raiseEvents us w

/-- The acknowledgment slot of a written byte, `ack` being the level sampled (R141). -/
def ackSlot (us : Half) (ack : Bool) (w : List Event) : List Event :=
  lowEvents .scl ++ releaseEvents .sda ++ [.delay us] ++ raiseEvents us w ++ [.read .sda ack] ++ lowEvents .scl

/-- A read bit sampled as `b` (R142, the loop body). -/
def readBit (us : Half) (b : Bool) (w : List Event) : List Event :=
  lowEvents .scl ++ [.delay us] ++ raiseEvents us w ++ [.read .sda b]

/-- The ninth clock of a read byte, the engine putting level `a` on SDA (R142). -/
def ninthClock (us : Half) (a : Bool) (w : List Event) : List Event :=
  lowEvents .scl ++ sdaEvents a ++ [.delay us] ++ raiseEvents us w ++ lowEvents .scl

/-- `es` writes bits `n-1` down to 0 of `d`, and `to'` says whether a wait timed out. -/
def BitsSent (us : Half) (polls : Nat) (d : Byte) : Nat → List Event → Bool → Prop
  | 0, es, to' => es = [] ∧ to' = false
  | n + 1, es, to' => ∃ w tw rest tr, IsWait polls w tw ∧ BitsSent us polls d n rest tr ∧
      es = writtenBit us (d.getLsbD n) w ++ rest ∧ to' = (tw || tr)

/-- `es` is `WriteByteCore(d)` with acknowledgment level `ack` and timeout bit `to'` (R141). -/
def ByteSent (us : Half) (polls : Nat) (d : Byte) (ack : Bool) (es : List Event) (to' : Bool) : Prop :=
  ∃ bits tb w tw, BitsSent us polls d 8 bits tb ∧ IsWait polls w tw ∧
    es = bits ++ ackSlot us ack w ∧ to' = (tb || tw)

/-- `es` samples bits `n-1` down to 0 of `v`. -/
def BitsRead (us : Half) (polls : Nat) (v : Byte) : Nat → List Event → Bool → Prop
  | 0, es, to' => es = [] ∧ to' = false
  | n + 1, es, to' => ∃ w tw rest tr, IsWait polls w tw ∧ BitsRead us polls v n rest tr ∧
      es = readBit us (v.getLsbD n) w ++ rest ∧ to' = (tw || tr)

/-- `es` is `ReadByteCore(a)` returning `v` and timeout bit `to'` (R142). -/
def ByteRead (us : Half) (polls : Nat) (a : Ack) (v : Byte) (es : List Event) (to' : Bool) : Prop :=
  ∃ bits tb w tw, BitsRead us polls v 8 bits tb ∧ IsWait polls w tw ∧
    es = releaseEvents .sda ++ bits ++ ninthClock us (ackLevel a) w ∧ to' = (tb || tw)

/-- The events of `StartSeq()` (R180). -/
def startEvents (us : Half) : List Event := lowEvents .sda ++ [.delay us] ++ lowEvents .scl

/-- The events of `RStartSeq()` with wait `w` (R181). -/
def rstartEvents (us : Half) (w : List Event) : List Event :=
  releaseEvents .sda ++ [.delay us] ++ raiseEvents us w ++ lowEvents .sda ++ [.delay us] ++ lowEvents .scl

/-- The events of `StopSeq()` with wait `w` (R182). -/
def stopEvents (us : Half) (w : List Event) : List Event :=
  lowEvents .sda ++ [.delay us] ++ raiseEvents us w ++ releaseEvents .sda ++ [.delay us]

/-- `es` is the payload of a write message: `n` bytes at most, from index `i` of `buf`, each sent only if all before it
gave `OK`; `r` is the running result and `to'` says whether a wait timed out (R190). -/
def PayloadSent (us : Half) (polls : Nat) (p : Bool) (buf : List Host.Cell) :
    Nat → Nat → List Event → ResultCode → Bool → Prop
  | 0, _, es, r, to' => es = [] ∧ r = .ok ∧ to' = false
  | n + 1, i, es, r, to' => ∃ d ack e te, Memory.read buf i = some d ∧ ByteSent us polls d ack e te ∧
      if byteResult p ack te = .ok then
        ∃ rest tr, PayloadSent us polls p buf n (i + 1) rest r tr ∧ es = e ++ rest ∧ to' = (te || tr)
      else es = e ∧ r = byteResult p ack te ∧ to' = te

/-- `es` is the payload of a read message: bytes `vs` in order, the last answered NACK and the others ACK; `r` is the
running result, the first failure staying, and `to'` says whether a wait timed out (R188, R191). -/
def PayloadRead (us : Half) (polls : Nat) (p : Bool) : List Byte → List Event → ResultCode → Bool → Prop
  | [], es, r, to' => es = [] ∧ r = .ok ∧ to' = false
  | v :: vs, es, r, to' => ∃ e te rest r' tr,
      ByteRead us polls (if vs = [] then .nack else .ack) v e te ∧ PayloadRead us polls p vs rest r' tr ∧
      es = e ++ rest ∧ r = (readResult p te).andThen r' ∧ to' = (te || tr)

/-- The buffer after a read message stored `vs` at indices 0 on: the other bytes read as before (R191). -/
abbrev Stored (vs : List Byte) (before after : List Host.Cell) : Prop :=
  ∀ a, Memory.read after a = if a < vs.length then vs[a]? else Memory.read before a

end Sys2Proof.Machine
end

