-- ==== Sys2Proof/Certificates/Slice0/Obligations.lean ====
section
/-! DEFINITION. The statements about this machine, each formalising what the spec says of it; none is about a program.
OBLIGATIONS.json lists them with the rules they rest on. -/

open Sys2Proof Sys2Proof.Machine

/-! ### Encoding -/

/-- Every command is read back from the word it encodes to, with every operand (30_encoding.md sections 2, 3, 5). -/
def Obligations.DecodeOfEncode : Prop := ∀ i : Instr, decode (encode i) = .command i

/-- A word that decodes to a command is the one word of that command: no bit of it is ignored (30_encoding.md R91). -/
def Obligations.EncodeOfDecode : Prop := ∀ (w : Word) (i : Instr), decode w = .command i → encode i = w

/-- R90: a word encodes a row's command when `w & mask = match`, and no two rows match one word. -/
def Obligations.OpcodeMapSelectsCommand : Prop :=
  (∀ r ∈ opcodeTable, ∀ w : Word,
      w &&& r.mask = r.bits ↔ ∃ i, decode w = .command i ∧ i.mnemonic = r.mnemonic) ∧
  (∀ r ∈ opcodeTable, ∀ q ∈ opcodeTable, ∀ w : Word, w &&& r.mask = r.bits → w &&& q.mask = q.bits → r = q)

/-- R91, R92, R96: a word with a reserved opcode, or with a 1 in a bit its format requires to be 0, is rejected: `RC` is
`ILLEGAL`, `TO` is 0, and nothing else changes. -/
def Obligations.IllegalWordsAreRejected : Prop :=
  ∀ (w : Word) (s : State),
    ((bitField w 28 4 = 0x0#4 ∨ bitField w 28 4 = 0xD#4 ∨ bitField w 28 4 = 0xE#4 ∨ bitField w 28 4 = 0xF#4) →
      command w s = .next { s with rc := .illegal, timedOut := false }) ∧
    ((∃ r ∈ opcodeTable, w &&& 0xF0000000#32 = r.bits ∧ w &&& r.mask ≠ r.bits) →
      command w s = .next { s with rc := .illegal, timedOut := false })

/-- Words of the spec's examples and vectors, one or more for each format (95_test_vectors.md sections 1 and 2). -/
def Obligations.SpecWordsDecode : Prop :=
  decode 0x10000001#32 = .command (.driveLow .scl) ∧ decode 0x20000000#32 = .command (.release .sda) ∧
  decode 0x30000001#32 = .command (.sample .scl) ∧ decode 0x40000000#32 = .command .halfDelay ∧
  decode 0x50000A00#32 = .command (.setDelay 10#16) ∧ decode 0x60000000#32 = .command .start ∧
  decode 0x70000000#32 = .command .rstart ∧ decode 0x80000000#32 = .command .stop ∧
  decode 0x900000D0#32 = .command (.writeByte 0xD0#8) ∧ decode 0xA0000001#32 = .command (.readByte .nack) ∧
  decode 0xB0000268#32 = .command (.writeMsg 0x68#7 2#16) ∧
  decode 0xC0000368#32 = .command (.readMsg 0x68#7 3#16)

/-- R99: `PROBE addr` is `WRITE_MSG addr, 0`, for every operand text. -/
def Obligations.ProbeIsEmptyWriteMsg : Prop :=
  ∀ addr : List Char, asmCommand "PROBE".toList [addr] = asmCommand "WRITE_MSG".toList [addr, "0".toList]

/-! ### The step and the command cycle -/

/-- A host write of `w` to `CMD` runs the command `w` encodes, on the state without that access (10_state.md R42,
30_encoding.md R95). The step adds nothing around `exec`; that accesses come from a queue is the model's choice (log
entry 8). -/
def Obligations.StepRunsDecodedCommand : Prop :=
  ∀ (s : State) (w : Word) (rest : List HostAccess) (i : Instr), s.cfg.ok = true →
    s.host = .regWrite 0 32 w :: rest → decode w = .command i → step s = exec i { s with host := rest }

/-- A host write of any other word to `CMD` rejects it: `RC` is `ILLEGAL`, `TO` is 0, and nothing else changes
(30_encoding.md R91 to R96). The queue is the model's choice (log entry 8). -/
def Obligations.StepRejectsIllegalWord : Prop :=
  ∀ (s : State) (w : Word) (rest : List HostAccess), s.cfg.ok = true → s.host = .regWrite 0 32 w :: rest →
    ((∀ i, decode w ≠ .command i) → step s = .next { s with host := rest, rc := .illegal, timedOut := false }) ∧
    ((bitField w 28 4 = 0x0#4 ∨ bitField w 28 4 = 0xD#4 ∨ bitField w 28 4 = 0xE#4 ∨ bitField w 28 4 = 0xF#4) ∨
        (∃ r ∈ opcodeTable, w &&& 0xF0000000#32 = r.bits ∧ w &&& r.mask ≠ r.bits) →
      step s = .next { s with host := rest, rc := .illegal, timedOut := false })

/-- The word of any command, placed where the next step takes it, makes that step run exactly the command. Where that
is, the front of the host's queue, is the model's choice (log entry 8). -/
def Obligations.PlacedWordRuns : Prop :=
  ∀ (i : Instr) (s : State), s.cfg.ok = true →
    step (s.withFetchWord 32 (encode i).toNat) = exec i s

/-- R97: a command not legal now is rejected with no other effect, and a legal one never ends with `ILLEGAL`. -/
def Obligations.LegalityDecidesRejection : Prop :=
  (∀ (i : Instr) (s : State), ¬ LegalNow i s → exec i s = .next { s with rc := .illegal, timedOut := false }) ∧
  (∀ (i : Instr) (s t : State), LegalNow i s → exec i s = .next t → t.rc ≠ .illegal)

/-- No command is refused, and only a write message can fault (60_exceptions.md sections 1 and 4). -/
def Obligations.OnlyWriteMsgFaults : Prop :=
  ∀ (i : Instr) (s : State),
    (∀ r, exec i s ≠ .refused r) ∧
    (∀ f, exec i s = .fault f → ∃ addr len, i = .writeMsg addr len)

/-! ### The lines -/

/-- R28 where there is no contention, and what a read returns: the level after the environment's moves in the gap. -/
def Obligations.LineLevelTable : Prop :=
  ∀ (b : Bus) (l : Line),
    ((b.latch.get l).dir = true → (b.latch.get l).out = false → b.level l = false) ∧
    ((b.latch.get l).dir = false → b.level l = !(b.ext.get l)) ∧
    (b.ext.get l = false → (b.latch.get l).dir = true → (b.latch.get l).out = true → b.level l = true) ∧
    (b.gpioRead l).1 = b.gap.level l

/-- R117: the latches of a line in the middle and at the end of each primitive; the other line's latches stay. -/
def Obligations.PrimitiveTransitions : Prop :=
  ∀ (b : Bus) (l k : Line),
    (b.gpioWrite l .dir true).latch.get l = { dir := true, out := (b.latch.get l).out } ∧
    (b.driveLow l).latch.get l = { dir := true, out := false } ∧
    (b.gpioWrite l .dir false).latch.get l = { dir := false, out := (b.latch.get l).out } ∧
    (b.release l).latch.get l = { dir := false, out := true } ∧
    (k ≠ l → (b.driveLow l).latch.get k = b.latch.get k ∧ (b.release l).latch.get k = b.latch.get k)

/-- DRIVE_LOW completes in both phases: two events, the line driven low, `RC` = `OK`, `TO` = 0, all else unchanged. -/
def Obligations.DriveLowCompletes : Prop :=
  ∀ (l : Line) (s : State), ∃ t, exec (.driveLow l) s = .next t ∧
    t.history = s.history ++ [.write l .dir true, .write l .out false] ∧
    t.bus.latch = s.bus.latch.set l { dir := true, out := false } ∧ t.bus.level l = false ∧
    t.rc = .ok ∧ t.timedOut = false ∧ t.ph = s.ph ∧ t.rxdata = s.rxdata ∧ t.delayUs = s.delayUs ∧
    SameBuffer s t ∧ SameSetting s t

/-- RELEASE completes in both phases: two events, the line released with pull-up, its level 1 unless held low. -/
def Obligations.ReleaseCompletes : Prop :=
  ∀ (l : Line) (s : State), ∃ t, exec (.release l) s = .next t ∧
    t.history = s.history ++ [.write l .dir false, .write l .out true] ∧
    t.bus.latch = s.bus.latch.set l { dir := false, out := true } ∧ t.bus.level l = !(t.bus.ext.get l) ∧
    t.rc = .ok ∧ t.timedOut = false ∧ t.ph = s.ph ∧ t.rxdata = s.rxdata ∧ t.delayUs = s.delayUs ∧
    SameBuffer s t ∧ SameSetting s t

/-- SAMPLE completes in both phases and puts the level it read in `RXDATA`: 0 on a line the engine drives low, and what
the environment's hold leaves on a released one. -/
def Obligations.SampleCompletes : Prop :=
  ∀ (l : Line) (s : State), ∃ t v, exec (.sample l) s = .next t ∧
    t.history = s.history ++ [.read l v] ∧ t.rxdata = (if v then 1#8 else 0#8) ∧
    (s.bus.latch.get l = { dir := true, out := false } → v = false) ∧
    ((s.bus.latch.get l).dir = false → v = !(s.bus.gap.ext.get l)) ∧
    t.bus.latch = s.bus.latch ∧ t.rc = .ok ∧ t.timedOut = false ∧ t.ph = s.ph ∧ t.delayUs = s.delayUs ∧
    SameBuffer s t ∧ SameSetting s t

/-- HALF_DELAY completes in both phases: one delay event of `DELAY.US` microseconds. -/
def Obligations.HalfDelayCompletes : Prop :=
  ∀ s : State, ∃ t, exec .halfDelay s = .next t ∧
    t.history = s.history ++ [.delay s.delayUs] ∧ t.bus.latch = s.bus.latch ∧
    t.rc = .ok ∧ t.timedOut = false ∧ t.ph = s.ph ∧ t.rxdata = s.rxdata ∧ t.delayUs = s.delayUs ∧
    SameBuffer s t ∧ SameSetting s t

/-- SET_DELAY completes in both phases: `DELAY` is written, no micro-step happens, the lines do not change. -/
def Obligations.SetDelayCompletes : Prop :=
  ∀ (us : Half) (s : State), ∃ t, exec (.setDelay us) s = .next t ∧
    t.delayUs = us ∧ readReg t .delay = us.zeroExtend 32 ∧ t.bus = s.bus ∧
    t.rc = .ok ∧ t.timedOut = false ∧ t.ph = s.ph ∧ t.rxdata = s.rxdata ∧ SameBuffer s t ∧ SameSetting s t

/-- A HALF_DELAY after a SET_DELAY waits the new delay (40_line_and_timing.md R125). -/
def Obligations.SetDelayGovernsLaterDelays : Prop :=
  ∀ (us : Half) (s : State), ∃ t u, exec (.setDelay us) s = .next t ∧ exec .halfDelay t = .next u ∧
    u.history = s.history ++ [.delay us]

/-- DRIVE_LOW on a released line that a device holds low passes through contention (10_state.md R29). That nothing
changes before its first micro-step is said with the plan of log entry 3, the model's choice. -/
def Obligations.DriveLowAgainstHoldIsContention : Prop :=
  ∀ (l : Line) (s : State), s.bus.latch.get l = { dir := false, out := true } → s.bus.ext.get l = true →
    s.bus.plan.take 1 = [[]] →
    ∃ t, exec (.driveLow l) s = .next t ∧ t.bus.contention = true

/-! ### Conditions -/

/-- START completes in IDLE: the five events of StartSeq, `PH` = ACTIVE, both lines driven low. -/
def Obligations.StartCompletes : Prop :=
  ∀ s : State, s.ph = .idle → ∃ t, exec .start s = .next t ∧
    t.history = s.history ++ [.write .sda .dir true, .write .sda .out false, .delay s.delayUs,
      .write .scl .dir true, .write .scl .out false] ∧
    t.bus.latch = { sda := { dir := true, out := false }, scl := { dir := true, out := false } } ∧
    t.ph = .active ∧ t.rc = .ok ∧ t.timedOut = false ∧ t.rxdata = s.rxdata ∧ t.delayUs = s.delayUs ∧
    SameBuffer s t ∧ SameSetting s t

/-- RSTART completes in ACTIVE: RStartSeq with one wait; `TO` says whether it timed out, and `RC` is `TIMEOUT` then if
timeouts are errors. -/
def Obligations.RstartCompletes : Prop :=
  ∀ s : State, s.ph = .active → ∃ t w tw, exec .rstart s = .next t ∧ IsWait s.cfg.stretchPolls w tw ∧
    t.history = s.history ++ rstartEvents s.delayUs w ∧ t.timedOut = tw ∧
    t.rc = (if tw = true ∧ s.cfg.timeoutIsError = true then .timeout else .ok) ∧
    t.bus.latch = { sda := { dir := true, out := false }, scl := { dir := true, out := false } } ∧
    t.ph = .active ∧ t.rxdata = s.rxdata ∧ t.delayUs = s.delayUs ∧ SameBuffer s t ∧ SameSetting s t

/-- STOP completes in ACTIVE: StopSeq with one wait, both lines released, `PH` = IDLE also after a timeout. -/
def Obligations.StopCompletes : Prop :=
  ∀ s : State, s.ph = .active → ∃ t w tw, exec .stop s = .next t ∧ IsWait s.cfg.stretchPolls w tw ∧
    t.history = s.history ++ stopEvents s.delayUs w ∧ t.timedOut = tw ∧
    t.rc = (if tw = true ∧ s.cfg.timeoutIsError = true then .timeout else .ok) ∧
    t.Released ∧ t.ph = .idle ∧ t.rxdata = s.rxdata ∧ t.delayUs = s.delayUs ∧
    SameBuffer s t ∧ SameSetting s t

/-- With SCL held low throughout, STOP still ends, after `STRETCH_POLLS` samples, with `TO` = 1 and the lines released
(42_framing.md R187, vectors S6 and S7). The hold is said with the plan of log entry 3, the model's choice. -/
def Obligations.HeldSclStopTimesOut : Prop :=
  ∀ s : State, s.ph = .active → s.SclHeldFor (9 + s.cfg.stretchPolls) →
    ∃ t, exec .stop s = .next t ∧ t.timedOut = true ∧
      t.rc = (if s.cfg.timeoutIsError then .timeout else .ok) ∧ t.ph = .idle ∧ t.Released ∧
      t.history = s.history ++ stopEvents s.delayUs (List.replicate s.cfg.stretchPolls (.read .scl false))

/-! ### Bytes -/

/-- R143: the result tables, for a byte written and a byte read. -/
def Obligations.ByteResultTables : Prop :=
  ∀ p ack t : Bool,
    byteResult p ack t = (if t = true ∧ p = true then .timeout else if ack = false then .ok else .nack) ∧
    readResult p t = (if t = true ∧ p = true then .timeout else .ok)

/-- WRITE_BYTE completes in ACTIVE: the events of WriteByteCore, the ACK level in `RXDATA`, `TO` for its waits. -/
def Obligations.WriteByteCompletes : Prop :=
  ∀ (d : Byte) (s : State), s.ph = .active → ∃ t es ack to', exec (.writeByte d) s = .next t ∧
    ByteSent s.delayUs s.cfg.stretchPolls d ack es to' ∧ t.history = s.history ++ es ∧
    t.rxdata = (if ack then 1#8 else 0#8) ∧ t.timedOut = to' ∧
    t.rc = byteResult s.cfg.timeoutIsError ack to' ∧
    t.bus.latch = { sda := { dir := false, out := true }, scl := { dir := true, out := false } } ∧
    t.ph = .active ∧ t.delayUs = s.delayUs ∧ SameBuffer s t ∧ SameSetting s t

/-- READ_BYTE completes in ACTIVE: the events of ReadByteCore, the byte in `RXDATA`, `TO` for its waits. -/
def Obligations.ReadByteCompletes : Prop :=
  ∀ (a : Ack) (s : State), s.ph = .active → ∃ t es v to', exec (.readByte a) s = .next t ∧
    ByteRead s.delayUs s.cfg.stretchPolls a v es to' ∧ t.history = s.history ++ es ∧
    t.rxdata = v ∧ t.timedOut = to' ∧ t.rc = readResult s.cfg.timeoutIsError to' ∧
    t.bus.latch =
      { sda := (match a with
          | .ack => { dir := true, out := false }
          | .nack => { dir := false, out := true }),
        scl := { dir := true, out := false } } ∧
    t.ph = .active ∧ t.delayUs = s.delayUs ∧ SameBuffer s t ∧ SameSetting s t

/-- Event counts of one byte (41_byte_transfer.md R147): a byte has nine waits of `k` samples each, `1 ≤ k ≤
STRETCH_POLLS`, and the counts of the table. -/
def Obligations.ByteEventCounts : Prop :=
  ∀ s : State, s.ph = .active → 0 < s.cfg.stretchPolls →
    (∀ d, ∃ t es, ∃ ks : List Nat, exec (.writeByte d) s = .next t ∧ t.history = s.history ++ es ∧
      ks.length = 9 ∧ (∀ k ∈ ks, 1 ≤ k ∧ k ≤ s.cfg.stretchPolls) ∧ es.length = 83 + ks.sum ∧
      es.countP Event.isDelay = 26 ∧ es.countP (Event.isSample .scl) = ks.sum ∧
      es.countP (Event.isSample .sda) = 1) ∧
    (∀ a, ∃ t es, ∃ ks : List Nat, exec (.readByte a) s = .next t ∧ t.history = s.history ++ es ∧
      ks.length = 9 ∧ (∀ k ∈ ks, 1 ≤ k ∧ k ≤ s.cfg.stretchPolls) ∧ es.length = 68 + ks.sum ∧
      es.countP Event.isDelay = 18 ∧ es.countP (Event.isSample .scl) = ks.sum ∧
      es.countP (Event.isSample .sda) = 8)

/-- What WRITE_BYTE reports of the ninth clock: `NACK` and `RXDATA` = 1 on a quiet bus, `OK` and `RXDATA` = 0 where a
slave acknowledges, or where SDA is held low throughout (41_byte_transfer.md R141, R150, vectors B1 and B2). The
environments are said with the plan of log entry 3, the model's choice. -/
def Obligations.WriteByteReportsTheNinthClock : Prop :=
  ∀ (d : Byte) (s : State), s.ph = .active → 0 < s.cfg.stretchPolls →
    (s.QuietFor 92 → ∃ t, exec (.writeByte d) s = .next t ∧
      t.rc = .nack ∧ t.rxdata = 1#8 ∧ t.timedOut = false) ∧
    (s.Scripted ackScript → ∃ t, exec (.writeByte d) s = .next t ∧
      t.rc = .ok ∧ t.rxdata = 0#8 ∧ t.timedOut = false) ∧
    (s.SdaHeldFor 92 → ∃ t, exec (.writeByte d) s = .next t ∧
      t.rc = .ok ∧ t.rxdata = 0#8 ∧ t.timedOut = false)

/-- READ_BYTE returns the byte the environment puts on SDA: 0xFF on a quiet bus, 0x00 where SDA is held low, and `v`
where a slave sends `v` (41_byte_transfer.md R142, R151, vectors B9 to B11). The environments are said with the plan
of log entry 3, the model's choice. -/
def Obligations.ReadByteReturnsWhatIsSent : Prop :=
  ∀ (a : Ack) (s : State), s.ph = .active → 0 < s.cfg.stretchPolls →
    (s.QuietFor 77 → ∃ t, exec (.readByte a) s = .next t ∧
      t.rc = .ok ∧ t.rxdata = 0xFF#8 ∧ t.timedOut = false) ∧
    (s.SdaHeldFor 77 → ∃ t, exec (.readByte a) s = .next t ∧
      t.rc = .ok ∧ t.rxdata = 0x00#8 ∧ t.timedOut = false) ∧
    (∀ v, s.Scripted (sendScript v) → ∃ t, exec (.readByte a) s = .next t ∧
      t.rc = .ok ∧ t.rxdata = v ∧ t.timedOut = false)

/-- The least time of the byte and condition commands, in half cycles of `DELAY.US` (70_reset_and_hazards.md R271). -/
def Obligations.HalfCyclesPerCommand : Prop :=
  ∀ s : State,
    (∀ d t, s.ph = .active → exec (.writeByte d) s = .next t →
      historyMicros t.history = historyMicros s.history + 26 * s.delayUs.toNat) ∧
    (∀ a t, s.ph = .active → exec (.readByte a) s = .next t →
      historyMicros t.history = historyMicros s.history + 18 * s.delayUs.toNat) ∧
    (∀ t, s.ph = .idle → exec .start s = .next t →
      historyMicros t.history = historyMicros s.history + s.delayUs.toNat) ∧
    (∀ t, s.ph = .active → exec .rstart s = .next t →
      historyMicros t.history = historyMicros s.history + 3 * s.delayUs.toNat) ∧
    (∀ t, s.ph = .active → exec .stop s = .next t →
      historyMicros t.history = historyMicros s.history + 3 * s.delayUs.toNat)

/-! ### Messages -/

/-- The address byte is the address, then the direction bit: 0 write, 1 read (30_encoding.md R101). -/
def Obligations.AddressByteForm : Prop :=
  ∀ addr : Addr7,
    addressByte addr .write = ((addr ++ (0#1 : BitVec 1) : BitVec 8)) ∧
    addressByte addr .read = ((addr ++ (1#1 : BitVec 1) : BitVec 8))

/-- WRITE_MSG completes in IDLE when its payload fits and is written: start, address byte, the payload while every byte
gives `OK`, stop; the first failure is the result, a stop timeout counting only when all before it was `OK`. -/
def Obligations.WriteMsgCompletes : Prop :=
  ∀ (addr : Addr7) (len : Half) (s : State), s.ph = .idle → len.toNat ≤ s.cfg.bufSize →
    s.PayloadWritten len.toNat →
    ∃ t ea ack ta es r te w tw, exec (.writeMsg addr len) s = .next t ∧
      ByteSent s.delayUs s.cfg.stretchPolls (addressByte addr .write) ack ea ta ∧
      (if byteResult s.cfg.timeoutIsError ack ta = .ok then
        PayloadSent s.delayUs s.cfg.stretchPolls s.cfg.timeoutIsError s.buf len.toNat 0 es r te
      else es = [] ∧ r = byteResult s.cfg.timeoutIsError ack ta ∧ te = false) ∧
      IsWait s.cfg.stretchPolls w tw ∧
      t.history = s.history ++ startEvents s.delayUs ++ ea ++ es ++ stopEvents s.delayUs w ∧
      t.rc = (if r = .ok ∧ tw = true ∧ s.cfg.timeoutIsError = true then .timeout else r) ∧
      t.timedOut = (ta || te || tw) ∧ t.ph = .idle ∧ t.Released ∧ t.rxdata = s.rxdata ∧
      t.delayUs = s.delayUs ∧ SameBuffer s t ∧ SameSetting s t

/-- READ_MSG completes in IDLE when its payload fits: start, address byte, and if that gave `OK` all `len` bytes, each
stored at its index, the last answered NACK; then the stop. -/
def Obligations.ReadMsgCompletes : Prop :=
  ∀ (addr : Addr7) (len : Half) (s : State), s.ph = .idle → len.toNat ≤ s.cfg.bufSize →
    ∃ t ea ack ta vs es r te w tw, exec (.readMsg addr len) s = .next t ∧
      ByteSent s.delayUs s.cfg.stretchPolls (addressByte addr .read) ack ea ta ∧
      (if byteResult s.cfg.timeoutIsError ack ta = .ok then
        vs.length = len.toNat ∧ PayloadRead s.delayUs s.cfg.stretchPolls s.cfg.timeoutIsError vs es r te
      else vs = [] ∧ es = [] ∧ r = byteResult s.cfg.timeoutIsError ack ta ∧ te = false) ∧
      IsWait s.cfg.stretchPolls w tw ∧
      t.history = s.history ++ startEvents s.delayUs ++ ea ++ es ++ stopEvents s.delayUs w ∧
      t.rc = (if r = .ok ∧ tw = true ∧ s.cfg.timeoutIsError = true then .timeout else r) ∧
      t.timedOut = (ta || te || tw) ∧ Stored vs s.buf t.buf ∧ t.ph = .idle ∧ t.Released ∧
      t.rxdata = s.rxdata ∧ t.delayUs = s.delayUs ∧ SameSetting s t

/-- Exactly when WRITE_MSG faults (20_memory.md R64, 42_framing.md R190). It faults only at the first payload byte
nothing has written. And where byte `i` is the first unwritten one, what decides is the message of length `i`, which
completes as WriteMsgCompletes says: if the address byte and those `i` bytes were all `OK`, the longer message
faults at `i`, and if one failed, the longer message answers the same state as the message of length `i`, byte `i`
never being read. -/
def Obligations.WriteMsgFaultIsUnwrittenByte : Prop :=
  (∀ (addr : Addr7) (len : Half) (s : State) (f : Fault), exec (.writeMsg addr len) s = .fault f →
    s.ph = .idle ∧ ∃ i < len.toNat, f = .bufUnwritten i ∧ Memory.read s.buf i = none ∧ s.PayloadWritten i) ∧
  (∀ (addr : Addr7) (len i : Half) (s : State), s.ph = .idle → len.toNat ≤ s.cfg.bufSize → i.toNat < len.toNat →
    s.PayloadWritten i.toNat → Memory.read s.buf i.toNat = none →
    ∃ u ea ack ta es r te w tw, exec (.writeMsg addr i) s = .next u ∧
      ByteSent s.delayUs s.cfg.stretchPolls (addressByte addr .write) ack ea ta ∧
      (if byteResult s.cfg.timeoutIsError ack ta = .ok then
        PayloadSent s.delayUs s.cfg.stretchPolls s.cfg.timeoutIsError s.buf i.toNat 0 es r te
      else es = [] ∧ r = byteResult s.cfg.timeoutIsError ack ta ∧ te = false) ∧
      IsWait s.cfg.stretchPolls w tw ∧
      u.history = s.history ++ startEvents s.delayUs ++ ea ++ es ++ stopEvents s.delayUs w ∧
      exec (.writeMsg addr len) s = (if r = .ok then .fault (.bufUnwritten i.toNat) else .next u))

/-- R194: after an address byte whose result is not `OK`, no byte follows, no buffer byte is read or written, and the
stop comes at once, for both message commands. -/
def Obligations.FailedAddressSendsNoPayload : Prop :=
  ∀ (addr : Addr7) (len : Half) (s : State), s.ph = .idle → len.toNat ≤ s.cfg.bufSize →
    ((openMessage addr .write (clearTimeout s)).1 ≠ .ok →
      ∃ t ack ea ta w tw, exec (.writeMsg addr len) s = .next t ∧
        ByteSent s.delayUs s.cfg.stretchPolls (addressByte addr .write) ack ea ta ∧
        IsWait s.cfg.stretchPolls w tw ∧
        t.history = s.history ++ startEvents s.delayUs ++ ea ++ stopEvents s.delayUs w ∧
        t.rc = byteResult s.cfg.timeoutIsError ack ta ∧ SameBuffer s t) ∧
    ((openMessage addr .read (clearTimeout s)).1 ≠ .ok →
      ∃ t ack ea ta w tw, exec (.readMsg addr len) s = .next t ∧
        ByteSent s.delayUs s.cfg.stretchPolls (addressByte addr .read) ack ea ta ∧
        IsWait s.cfg.stretchPolls w tw ∧
        t.history = s.history ++ startEvents s.delayUs ++ ea ++ stopEvents s.delayUs w ∧
        t.rc = byteResult s.cfg.timeoutIsError ack ta ∧ SameBuffer s t)

/-- On a quiet bus both message commands end with `NACK` after 107 events, 30 of them delays, whatever the buffer holds
(42_framing.md R193, vectors L1-3, M6, M10). The quiet bus is said with the plan of log entry 3, the model's choice. -/
def Obligations.QuietBusMessageIsNack : Prop :=
  ∀ (addr : Addr7) (len : Half) (s : State), s.ph = .idle → len.toNat ≤ s.cfg.bufSize →
    0 < s.cfg.stretchPolls → s.QuietFor 107 → ∀ i ∈ [Instr.writeMsg addr len, Instr.readMsg addr len],
    ∃ t es, exec i s = .next t ∧ t.history = s.history ++ es ∧ es.length = 107 ∧
      es.countP Event.isDelay = 30 ∧ t.rc = .nack ∧ t.timedOut = false ∧ t.ph = .idle ∧ SameBuffer s t

/-! ### Rules of the whole machine -/

/-- R192: both lines are released after STOP, WRITE_MSG and READ_MSG, whatever their result. -/
def Obligations.LinesReleasedAfterStop : Prop :=
  ∀ (i : Instr) (s t : State),
    (i = .stop ∨ (∃ addr len, i = .writeMsg addr len) ∨ (∃ addr len, i = .readMsg addr len)) →
    LegalNow i s → exec i s = .next t →
    t.Released ∧ (t.bus.ext = { sda := false, scl := false } → t.bus.level .sda = true ∧ t.bus.level .scl = true)

/-- Which commands change the phase (10_state.md R38): START to ACTIVE, STOP to IDLE, no other. -/
def Obligations.PhaseWriters : Prop :=
  ∀ (i : Instr) (s t : State), exec i s = .next t →
    (i = .start → t.ph = .active) ∧ (i = .stop → t.ph = .idle) ∧
    (i ≠ .start → i ≠ .stop → t.ph = s.ph)

/-- Which commands change `RXDATA` (10_state.md R41), `DELAY` (R35) and `BUF` (20_memory.md R63). -/
def Obligations.RegisterWriters : Prop :=
  ∀ (i : Instr) (s t : State), exec i s = .next t →
    ((∀ l, i ≠ .sample l) → (∀ d, i ≠ .writeByte d) → (∀ a, i ≠ .readByte a) → t.rxdata = s.rxdata) ∧
    ((∀ us, i ≠ .setDelay us) → t.delayUs = s.delayUs) ∧
    ((∀ addr len, i ≠ .readMsg addr len) → SameBuffer s t) ∧
    (∀ addr len, i = .readMsg addr len → ∀ a, len.toNat ≤ a → Memory.read t.buf a = Memory.read s.buf a) ∧
    SameSetting s t

/-- R272: the bounds on a command's events, for every behaviour of the environment; an illegal word makes none. -/
def Obligations.EventBounds : Prop :=
  ∀ (i : Instr) (s t : State), 0 < s.cfg.stretchPolls → exec i s = .next t →
    (LegalNow i s → s.history.length + fewestEvents i ≤ t.history.length ∧
      t.history.length ≤ s.history.length + mostEvents s.cfg.stretchPolls i) ∧
    (¬ LegalNow i s → t.history = s.history) ∧
    (∀ w cause, decode w = .illegal cause → ∃ u, command w s = .next u ∧ u.history = s.history)

/-- Over a step, of the engine, the host or the environment (log entries 7 and 8), the configuration stays, the trace
and the history only grow, and contention is never cleared (10_state.md R29, R44, R46). -/
def Obligations.RecordsOnlyGrow : Prop :=
  ∀ s t : State, step s = .next t →
    t.cfg = s.cfg ∧ s.bus.trace <+: t.bus.trace ∧ s.history <+: t.history ∧
      (s.bus.contention = true → t.bus.contention = true)

/-- Every step adds points to the wire trace that tell what the lines did: the latches and the hold bits after the step
are those the points lead to; without contention on a line every level recorded, and every level a sample returned,
is the wired-AND of latch and hold bit at that point; and `CONTENTION` is set exactly where a point left a line
driven high and held low (10_state.md R28, R29, R44). That the points are kept so is the model's choice (log entry
15). -/
def Obligations.TraceTellsTheLines : Prop :=
  ∀ s t : State, step s = .next t → ∃ ps, t.bus.trace = s.bus.trace ++ ps ∧
    t.bus.wires = s.bus.wires.afterAll ps ∧ s.bus.wires.TruePoints ps ∧
    (t.bus.contention = true ↔ s.bus.contention = true ∨ s.bus.wires.ClashIn ps)

/-- The invariant holds after reset, the configuration of reset is not refused, and reset is a construction with the
default parameters (the bindings among them, and the empty plan, are the model's choice: log entries 2 and 3). -/
def Obligations.ResetMeetsInvariant : Prop :=
  State.reset.Inv ∧ State.reset.cfg.ok = true ∧
    ∃ dir out ext, State.reset = State.construct Config.defaults (Bus.construct dir out ext [])

/-- Every step keeps the invariant: the buffer canonical and inside `BUF_SIZE`, contention present noted. -/
def Obligations.StepKeepsInvariant : Prop := ∀ s t : State, s.Inv → step s = .next t → t.Inv

/-- R250: what construction leaves, for every configuration, every pre-reset latch and every environment: the six
events, both lines released, the registers at their reset values, the buffer unwritten. -/
def Obligations.ConstructionLeaves : Prop :=
  ∀ (c : Params) (dir out ext : PerLine Bool) (plan : List (List (PerLine Bool))),
    let s := State.construct c (Bus.construct dir out ext plan)
    s.history = [.write .sda .dir true, .write .scl .dir true, .write .scl .dir false, .write .scl .out true,
      .write .sda .dir false, .write .sda .out true] ∧
    s.Released ∧ s.status = 0#32 ∧ readReg s .cmd = 0#32 ∧ readReg s .rxdata = 0#32 ∧
    readReg s .delay = c.delayReset.zeroExtend 32 ∧ ∀ a, Memory.read s.buf a = none

/-! ### The host's side -/

/-- The fields of the `STATUS` word, with the result codes 0 to 3, its value after reset, and that host writes to it are
ignored (10_state.md R36, R37). The queue the host's write comes from is the model's choice (log entry 8). -/
def Obligations.StatusWordFields : Prop :=
  (∀ s : State,
    bitField s.status 0 2 = (match s.rc with
      | .ok => 0#2
      | .nack => 1#2
      | .timeout => 2#2
      | .illegal => 3#2) ∧ s.status.getLsbD 2 = s.timedOut ∧
    s.status.getLsbD 3 = decide (s.ph = .active) ∧ bitField s.status 4 28 = 0#28) ∧
  State.reset.status = 0#32 ∧
  (∀ (s : State) (w : Word) (rest : List HostAccess), s.cfg.ok = true → s.host = .regWrite 4 32 w :: rest →
    step s = .next { s with host := rest })

/-- Side effects of host accesses (20_memory.md R65): a register read changes nothing but what the host has read, a
write to a register other than `CMD` is ignored, and a buffer access changes only the byte written. The queue and
the record of what was read are the model's choice (log entries 8 and 9). -/
def Obligations.HostAccessSideEffects : Prop :=
  ∀ (s : State) (rest : List HostAccess), s.cfg.ok = true →
    (∀ off ∈ [0, 4, 8, 12], s.host = .regRead off 32 :: rest →
      ∃ v, step s = .next { s with host := rest, replies := s.replies ++ [.reg off v] }) ∧
    (∀ off ∈ [4, 8, 12], ∀ w, s.host = .regWrite off 32 w :: rest → step s = .next { s with host := rest }) ∧
    (∀ i v, s.host = .bufWrite i v :: rest → i < s.cfg.bufSize →
      ∃ m, step s = .next { s with host := rest, buf := m } ∧
        ∀ a, Memory.read m a = if a = i then some v else Memory.read s.buf a) ∧
    (∀ i v, s.host = .bufRead i :: rest → i < s.cfg.bufSize → Memory.read s.buf i = some v →
      step s = .next { s with host := rest, replies := s.replies ++ [.byte i v] })

/-- The host register map (20_memory.md R61): the four registers at their offsets, and every access that is not an
aligned 32-bit one inside the map is refused. The queue and the record of what was read are the model's choice (log
entries 8 and 9). -/
def Obligations.HostRegisterMap : Prop :=
  ∀ (s : State) (rest : List HostAccess), s.cfg.ok = true →
    (s.host = .regRead 0x00 32 :: rest →
      step s = .next { s with host := rest, replies := s.replies ++ [.reg 0x00 0#32] }) ∧
    (s.host = .regRead 0x04 32 :: rest →
      step s = .next { s with host := rest, replies := s.replies ++ [.reg 0x04 s.status] }) ∧
    (s.host = .regRead 0x08 32 :: rest →
      step s = .next { s with host := rest, replies := s.replies ++ [.reg 0x08 (s.rxdata.zeroExtend 32)] }) ∧
    (s.host = .regRead 0x0C 32 :: rest →
      step s = .next { s with host := rest, replies := s.replies ++ [.reg 0x0C (s.delayUs.zeroExtend 32)] }) ∧
    (∀ off width, width ≠ 32 ∨ off % 4 ≠ 0 ∨ 0x0F < off →
      (s.host = .regRead off width :: rest → step s = .refused (.registerAccess off width)) ∧
      ∀ w, s.host = .regWrite off width w :: rest → step s = .refused (.registerAccess off width))

/-- A byte the host writes is what it reads back, and a read of a byte nothing has written is the fault
(20_memory.md R63, R64). The queue, the record of what was read, and that the fault is an outcome are the model's choice
(log entries 8, 9 and 10). -/
def Obligations.HostBufferReadBack : Prop :=
  ∀ (s : State) (i : Nat) (v : Byte) (rest : List HostAccess), s.cfg.ok = true →
    (s.host = .bufWrite i v :: .bufRead i :: rest → i < s.cfg.bufSize →
      ∃ t u, step s = .next t ∧ step t = .next u ∧ u.replies = s.replies ++ [.byte i v] ∧ u.host = rest) ∧
    (s.host = .bufRead i :: rest → i < s.cfg.bufSize → Memory.read s.buf i = none →
      step s = .fault (.bufUnwritten i)) ∧
    (s.host = .bufRead i :: rest → s.cfg.bufSize ≤ i → step s = .refused (.bufferIndex i)) ∧
    (s.host = .bufWrite i v :: rest → s.cfg.bufSize ≤ i → step s = .refused (.bufferIndex i))

/-- A refused configuration has no run: a missing binding, one pin for both lines, no polls, a buffer size outside 1 to
65536 (00_scope.md R9, 10_state.md R25). That it shows as a refusal of every step is the model's choice (log entry
11). -/
def Obligations.RefusedConfigurations : Prop :=
  ∀ s : State,
    (s.cfg.sdaBind = none ∨ s.cfg.sclBind = none ∨ s.cfg.stretchPolls = 0 ∨ s.cfg.bufSize = 0 ∨
      65536 < s.cfg.bufSize ∨
      (∃ a b, s.cfg.sdaBind = some a ∧ s.cfg.sclBind = some b ∧ a.bit = b.bit ∧
        (a.dirReg = b.dirReg ∨ a.outReg = b.outReg))) ↔
    step s = .refused .configuration

/-- With no host access waiting, a step is the environment's: the engine holds its state and the next planned changes of
the hold bits happen (10_state.md R22, 60_exceptions.md R235). The idle step and the plan are the model's choice (log
entries 3 and 8). -/
def Obligations.IdleStepIsEnvironments : Prop :=
  ∀ s : State, s.cfg.ok = true → s.host = [] → ∃ t, step s = .next t ∧
    t.bus.latch = s.bus.latch ∧ t.history = s.history ∧ t.status = s.status ∧ t.rxdata = s.rxdata ∧
    t.delayUs = s.delayUs ∧ t.buf = s.buf ∧
    ∀ h rest, s.bus.plan = [h] :: rest → t.bus.ext = h ∧ t.bus.plan = rest

/-! ### The wire -/

/-- The symbols on the wire on a quiet bus: S from the idle bus, Sr and P from inside a transaction, and for a written
byte its bits, most significant first, then N (30_encoding.md R104). The reader is the model's (log entry 17), and the
quiet bus is said with its plan (log entry 3). -/
def Obligations.WireSymbolsOnQuietBus : Prop :=
  (∀ s : State, s.ph = .idle → s.Released → s.QuietFor 5 →
    ∃ t ps, exec .start s = .next t ∧ t.bus.trace = s.bus.trace ++ ps ∧
      wireSymbols Reader.idle ps = [.start]) ∧
  (∀ s : State, s.ph = .active → s.bus.latch.scl = { dir := true, out := false } → 0 < s.cfg.stretchPolls →
    (s.QuietFor 12 → ∃ t ps, exec .rstart s = .next t ∧ t.bus.trace = s.bus.trace ++ ps ∧
      wireSymbols Reader.open ps = [.rstart]) ∧
    (s.QuietFor 10 → ∃ t ps, exec .stop s = .next t ∧ t.bus.trace = s.bus.trace ++ ps ∧
      wireSymbols Reader.open ps = [.stop]) ∧
    (∀ d, s.QuietFor 92 → ∃ t ps, exec (.writeByte d) s = .next t ∧ t.bus.trace = s.bus.trace ++ ps ∧
      wireSymbols Reader.open ps = byteSymbols d ++ [.nack]))
end

