-- ==== Sys2Proof/Laws/Bus.lean ====
section
/-! SUPPORT. What the environment's gap, the micro-steps and the line primitives do to the lines: the latches, the
event history, the contention flag and the trace (10_state.md R26 to R30, R44, 40_line_and_timing.md R110 to R114). -/

namespace Sys2Proof.Machine

@[simp] theorem PerLine.get_set_self {α : Type} (p : PerLine α) (l : Line) (v : α) : (p.set l v).get l = v := by
  cases l <;> rfl

@[simp] theorem PerLine.get_sda {α : Type} (p : PerLine α) : p.get .sda = p.sda := rfl
@[simp] theorem PerLine.get_scl {α : Type} (p : PerLine α) : p.get .scl = p.scl := rfl
@[simp] theorem PerLine.set_set {α : Type} (p : PerLine α) (l : Line) (v w : α) :
    (p.set l v).set l w = p.set l w := by
  cases l <;> rfl

@[simp] theorem Bus.gap_latch (b : Bus) : b.gap.latch = b.latch := rfl
@[simp] theorem Bus.record_latch (e : Event) (b : Bus) : (b.record e).latch = b.latch := rfl
@[simp] theorem Bus.record_ext (e : Event) (b : Bus) : (b.record e).ext = b.ext := rfl
@[simp] theorem Bus.record_plan (e : Event) (b : Bus) : (b.record e).plan = b.plan := rfl

@[simp] theorem Point.event?_event (e : Event) (v : PerLine Bool) : (Point.event e v).event? = some e := rfl
@[simp] theorem Point.event?_env (h v : PerLine Bool) : (Point.env h v).event? = none := rfl

theorem envPoints_events (k : PerLine Latch) (t : Nat) (m : List (PerLine Bool)) :
    (envPoints k t m).filterMap Point.event? = [] := by
  induction m generalizing t with
  | nil => rfl
  | cons h rest ih => simp only [envPoints, List.filterMap_cons, Point.event?_env, ih]

@[simp] theorem Bus.gap_history (b : Bus) : b.gap.history = b.history := by
  simp [Bus.history, Bus.gap, envPoints_events]

@[simp] theorem Bus.record_history (e : Event) (b : Bus) : (b.record e).history = b.history ++ [e] := by
  simp [Bus.history, Bus.record]

@[simp] theorem Bus.putLatch_history (l : Line) (f : LatchBit) (v : Bool) (b : Bus) :
    (b.putLatch l f v).history = b.history := rfl

@[simp] theorem Bus.gpioWrite_history (l : Line) (f : LatchBit) (v : Bool) (b : Bus) :
    (b.gpioWrite l f v).history = b.history ++ [.write l f v] := by simp [Bus.gpioWrite]

@[simp] theorem Bus.gpioRead_history (l : Line) (b : Bus) :
    (b.gpioRead l).2.history = b.history ++ [.read l (b.gpioRead l).1] := by simp [Bus.gpioRead]

@[simp] theorem Bus.delay_history (us : Half) (b : Bus) :
    (b.delay us).history = b.history ++ [.delay us] := by simp [Bus.delay]

@[simp] theorem Bus.driveLow_history (l : Line) (b : Bus) :
    (b.driveLow l).history = b.history ++ lowEvents l := by simp [Bus.driveLow, lowEvents]

@[simp] theorem Bus.release_history (l : Line) (b : Bus) :
    (b.release l).history = b.history ++ releaseEvents l := by simp [Bus.release, releaseEvents]

@[simp] theorem Bus.gpioWrite_latch (l : Line) (f : LatchBit) (v : Bool) (b : Bus) :
    (b.gpioWrite l f v).latch = b.latch.set l ((b.latch.get l).put f v) := rfl

@[simp] theorem Bus.gpioRead_latch (l : Line) (b : Bus) : (b.gpioRead l).2.latch = b.latch := rfl

@[simp] theorem Bus.delay_latch (us : Half) (b : Bus) : (b.delay us).latch = b.latch := rfl

/-- R117: `DriveLow` ends driven low whatever it starts from. -/
@[simp] theorem Bus.driveLow_latch (l : Line) (b : Bus) :
    (b.driveLow l).latch = b.latch.set l { dir := true, out := false } := by
  cases l <;> rfl

/-- R117: `Release` ends released with pull-up whatever it starts from. -/
@[simp] theorem Bus.release_latch (l : Line) (b : Bus) :
    (b.release l).latch = b.latch.set l { dir := false, out := true } := by
  cases l <;> rfl

/-- R28: without contention the level of a line is the wired-AND, whatever is drawn. -/
theorem levelAt_wiredAnd {k : PerLine Latch} {ext : PerLine Bool} {l : Line}
    (h : ¬ Contended (k.get l) (ext.get l)) (t : Nat) : levelAt k ext t l = wiredAnd (k.get l) (ext.get l) := by
  unfold Contended at h
  unfold levelAt lineLevel wiredAnd
  cases hd : (k.get l).dir <;> cases ho : (k.get l).out <;> cases hx : ext.get l <;> simp_all

/-- R28: the levels recorded at a point. -/
theorem levelsAt_get (k : PerLine Latch) (ext : PerLine Bool) (t : Nat) (l : Line) :
    (levelsAt k ext t).get l = levelAt k ext t l := by
  cases l <;> rfl

/-- R29: the model's contention is a line driven high and held low. -/
theorem clash_iff (w : Wires) : clash w.latch w.ext = true ↔ w.Clash := by
  constructor
  · intro h
    rcases Bool.or_eq_true_iff.1 h with h | h <;> simp only [lineClash, Bool.and_eq_true] at h
    · exact ⟨.sda, h.1.1, h.1.2, h.2⟩
    · exact ⟨.scl, h.1.1, h.1.2, h.2⟩
  · rintro ⟨l, h1, h2, h3⟩
    cases l <;> simp_all [clash, lineClash]

theorem Wires.afterAll_append (w : Wires) (ps qs : List Point) :
    w.afterAll (ps ++ qs) = (w.afterAll ps).afterAll qs := List.foldl_append

theorem Wires.truePoints_append (w : Wires) (ps qs : List Point) :
    w.TruePoints (ps ++ qs) ↔ w.TruePoints ps ∧ (w.afterAll ps).TruePoints qs := by
  induction ps generalizing w with
  | nil => simp [Wires.TruePoints, Wires.afterAll]
  | cons p ps ih => simp only [List.cons_append, Wires.TruePoints, ih, and_assoc]; rfl

theorem Wires.clashIn_append (w : Wires) (ps qs : List Point) :
    w.ClashIn (ps ++ qs) ↔ w.ClashIn ps ∨ (w.afterAll ps).ClashIn qs := by
  induction ps generalizing w with
  | nil => simp [Wires.ClashIn, Wires.afterAll]
  | cons p ps ih => simp only [List.cons_append, Wires.ClashIn, ih, or_assoc]; rfl

/-- From `b` to `c` the trace gained points that tell what the lines did (R28, R29, R44). -/
def Bus.Tells (b c : Bus) : Prop :=
  ∃ ps, c.trace = b.trace ++ ps ∧ c.wires = b.wires.afterAll ps ∧ b.wires.TruePoints ps ∧
    (c.contention = true ↔ b.contention = true ∨ b.wires.ClashIn ps)

theorem Bus.Tells.refl (b : Bus) : b.Tells b :=
  ⟨[], (List.append_nil _).symm, rfl, trivial, by simp [Wires.ClashIn]⟩

theorem Bus.Tells.trans {a b c : Bus} (h : a.Tells b) (k : b.Tells c) : a.Tells c := by
  obtain ⟨ps, h1, h2, h3, h4⟩ := h
  obtain ⟨qs, k1, k2, k3, k4⟩ := k
  rw [h2] at k2 k3 k4
  exact ⟨ps ++ qs, by rw [k1, h1, List.append_assoc], by rw [k2, Wires.afterAll_append],
    (Wires.truePoints_append _ _ _).2 ⟨h3, k3⟩, by rw [k4, h4, Wires.clashIn_append, or_assoc]⟩

/-- A micro-step's point, where its event leads from `w` to the wires of `b`. -/
theorem Bus.record_tells {b c : Bus} {e : Event} (ht : c.trace = b.trace) (hc : c.contention = b.contention)
    (hw : ∀ v, b.wires.after (.event e v) = c.wires) (hr : ∀ l v, e = .read l v → v = c.level l) :
    b.Tells (c.record e) := by
  refine ⟨[.event e (levelsAt c.latch c.ext (c.instant + 1))], by rw [← ht]; rfl, (hw _).symm,
    ⟨?_, trivial⟩, ?_⟩
  · intro l hl
    rw [hw] at hl ⊢
    refine ⟨(levelsAt_get _ _ _ _).trans (levelAt_wiredAnd hl _), fun v hv => ?_⟩
    rw [hr l v (by simpa using hv)]
    exact levelAt_wiredAnd hl _
  · simp only [Wires.ClashIn, hw, or_false, ← clash_iff, ← hc]
    exact Bool.or_eq_true_iff

theorem envPoints_tells (k : PerLine Latch) (ext : PerLine Bool) (t : Nat) (m : List (PerLine Bool)) :
    Wires.afterAll ⟨k, ext⟩ (envPoints k t m) = ⟨k, lastHold ext m⟩ ∧
      Wires.TruePoints ⟨k, ext⟩ (envPoints k t m) ∧
      (Wires.ClashIn ⟨k, ext⟩ (envPoints k t m) ↔ m.any (clash k) = true) := by
  induction m generalizing ext t with
  | nil => exact ⟨rfl, trivial, by simp [envPoints, Wires.ClashIn]⟩
  | cons h rest ih =>
    obtain ⟨h1, h2, h3⟩ := ih h (t + 1)
    refine ⟨h1, ⟨fun l hl => ⟨(levelsAt_get _ _ _ _).trans (levelAt_wiredAnd hl _), fun v hv => ?_⟩, h2⟩, ?_⟩
    · simp at hv

    · rw [List.any_cons, Bool.or_eq_true, ← h3]
      exact or_congr (clash_iff ⟨k, h⟩).symm Iff.rfl

theorem Bus.gap_tells (b : Bus) : b.Tells b.gap := by
  obtain ⟨h1, h2, h3⟩ := envPoints_tells b.latch b.ext b.instant b.moves
  exact ⟨_, rfl, h1.symm, h2, by rw [show b.wires = ⟨b.latch, b.ext⟩ from rfl, h3]; exact Bool.or_eq_true_iff⟩

/-- What every operation on the lines does to the record: the trace only grows, contention is never cleared, and where
contention present was noted before, it is noted after (R29, R44). -/
structure Bus.Grows (b c : Bus) : Prop where
  trace : b.trace <+: c.trace
  contention : b.contention = true → c.contention = true
  noted : (clash b.latch b.ext = true → b.contention = true) → clash c.latch c.ext = true → c.contention = true
  tells : b.Tells c

theorem Bus.Grows.refl (b : Bus) : b.Grows b := ⟨List.prefix_refl _, id, id, .refl b⟩

theorem Bus.Grows.trans {a b c : Bus} (h : a.Grows b) (k : b.Grows c) : a.Grows c :=
  ⟨h.trace.trans k.trace, fun x => k.contention (h.contention x), fun x => k.noted (h.noted x),
    h.tells.trans k.tells⟩

theorem clash_lastHold {k : PerLine Latch} {ext : PerLine Bool} {m : List (PerLine Bool)}
    (h : clash k (lastHold ext m) = true) : clash k ext = true ∨ m.any (clash k) = true := by
  induction m generalizing ext with
  | nil => exact .inl h
  | cons x rest ih =>
    rcases ih h with h | h
    · exact .inr (by simp [h])
    · exact .inr (by rw [List.any_cons, h, Bool.or_true])

theorem Bus.gap_grows (b : Bus) : b.Grows b.gap where
  trace := List.prefix_append _ _
  contention h := by simp [Bus.gap, h]
  noted h hc := by
    rcases clash_lastHold hc with hc | hc
    · simp [Bus.gap, h hc]
    · have hm : b.moves.any (clash b.latch) = true := hc
      show (b.contention || b.moves.any (clash b.latch)) = true
      rw [hm, Bool.or_true]
  tells := b.gap_tells

/-- A micro-step notes the contention it leaves, whatever was noted before (R29). -/
theorem Bus.record_noted (e : Event) (b : Bus) (h : clash (b.record e).latch (b.record e).ext = true) :
    (b.record e).contention = true := by
  have h' : clash b.latch b.ext = true := h
  simp [Bus.record, h']

theorem Bus.putLatch_record_grows (l : Line) (f : LatchBit) (v : Bool) (b : Bus) :
    b.Grows ((b.putLatch l f v).record (.write l f v)) where
  trace := List.prefix_append _ _
  contention h := by simp [Bus.record, Bus.putLatch, h]
  noted _ h := Bus.record_noted _ _ h
  tells := Bus.record_tells rfl rfl (fun _ => by cases f <;> rfl) (fun _ _ h => by simp at h)

/-- An event that writes no latch, and reads the level it says if it is a sample. -/
theorem Bus.record_grows {e : Event} {b : Bus} (hw : ∀ v, b.wires.after (.event e v) = b.wires)
    (hr : ∀ l v, e = .read l v → v = b.level l) : b.Grows (b.record e) where
  trace := List.prefix_append _ _
  contention h := by simp [Bus.record, h]
  noted _ h := Bus.record_noted e b h
  tells := Bus.record_tells rfl rfl hw hr

theorem Bus.gpioWrite_grows (l : Line) (f : LatchBit) (v : Bool) (b : Bus) : b.Grows (b.gpioWrite l f v) :=
  b.gap_grows.trans (Bus.putLatch_record_grows l f v _)

theorem Bus.gpioRead_grows (l : Line) (b : Bus) : b.Grows (b.gpioRead l).2 :=
  b.gap_grows.trans (Bus.record_grows (fun _ => rfl) (fun _ _ h => by cases h; rfl))

theorem Bus.delay_grows (us : Half) (b : Bus) : b.Grows (b.delay us) :=
  b.gap_grows.trans (Bus.record_grows (fun _ => rfl) (fun _ _ h => by simp at h))

theorem Bus.driveLow_grows (l : Line) (b : Bus) : b.Grows (b.driveLow l) :=
  (Bus.gpioWrite_grows _ _ _ _).trans (Bus.gpioWrite_grows _ _ _ _)

theorem Bus.release_grows (l : Line) (b : Bus) : b.Grows (b.release l) :=
  (Bus.gpioWrite_grows _ _ _ _).trans (Bus.gpioWrite_grows _ _ _ _)

/-- An empty gap of the plan lets a quiet micro-step keep the hold bits and use up one gap. -/
theorem Bus.gap_ext_of_plan {b : Bus} {n : Nat} (h : b.plan.take (n + 1) = List.replicate (n + 1) []) :
    b.gap.ext = b.ext ∧ b.gap.plan.take n = List.replicate n [] := by
  obtain ⟨latch, ext, con, trace, plan, inst⟩ := b
  cases plan with
  | nil => simp at h
  | cons m rest =>
    simp only [List.take_succ_cons, List.replicate_succ, List.cons.injEq] at h
    obtain ⟨rfl, h⟩ := h
    exact ⟨rfl, h⟩

end Sys2Proof.Machine
end

