-- ==== Sys2Proof/Laws/State.lean ====
section
/-! SUPPORT. One small lemma per field per update of State, so that no proof unfolds a record update. -/

namespace Sys2Proof.Machine

@[simp] theorem driveLow_cfg (l : Line) (s : State) : (driveLow l s).cfg = s.cfg := rfl
@[simp] theorem driveLow_rc (l : Line) (s : State) : (driveLow l s).rc = s.rc := rfl
@[simp] theorem driveLow_timedOut (l : Line) (s : State) : (driveLow l s).timedOut = s.timedOut := rfl
@[simp] theorem driveLow_ph (l : Line) (s : State) : (driveLow l s).ph = s.ph := rfl
@[simp] theorem driveLow_rxdata (l : Line) (s : State) : (driveLow l s).rxdata = s.rxdata := rfl
@[simp] theorem driveLow_delayUs (l : Line) (s : State) : (driveLow l s).delayUs = s.delayUs := rfl
@[simp] theorem driveLow_buf (l : Line) (s : State) : (driveLow l s).buf = s.buf := rfl
@[simp] theorem driveLow_host (l : Line) (s : State) : (driveLow l s).host = s.host := rfl
@[simp] theorem driveLow_replies (l : Line) (s : State) : (driveLow l s).replies = s.replies := rfl

@[simp] theorem release_cfg (l : Line) (s : State) : (release l s).cfg = s.cfg := rfl
@[simp] theorem release_rc (l : Line) (s : State) : (release l s).rc = s.rc := rfl
@[simp] theorem release_timedOut (l : Line) (s : State) : (release l s).timedOut = s.timedOut := rfl
@[simp] theorem release_ph (l : Line) (s : State) : (release l s).ph = s.ph := rfl
@[simp] theorem release_rxdata (l : Line) (s : State) : (release l s).rxdata = s.rxdata := rfl
@[simp] theorem release_delayUs (l : Line) (s : State) : (release l s).delayUs = s.delayUs := rfl
@[simp] theorem release_buf (l : Line) (s : State) : (release l s).buf = s.buf := rfl
@[simp] theorem release_host (l : Line) (s : State) : (release l s).host = s.host := rfl
@[simp] theorem release_replies (l : Line) (s : State) : (release l s).replies = s.replies := rfl

@[simp] theorem sample_cfg (l : Line) (s : State) : (sample l s).2.cfg = s.cfg := rfl
@[simp] theorem sample_rc (l : Line) (s : State) : (sample l s).2.rc = s.rc := rfl
@[simp] theorem sample_timedOut (l : Line) (s : State) : (sample l s).2.timedOut = s.timedOut := rfl
@[simp] theorem sample_ph (l : Line) (s : State) : (sample l s).2.ph = s.ph := rfl
@[simp] theorem sample_rxdata (l : Line) (s : State) : (sample l s).2.rxdata = s.rxdata := rfl
@[simp] theorem sample_delayUs (l : Line) (s : State) : (sample l s).2.delayUs = s.delayUs := rfl
@[simp] theorem sample_buf (l : Line) (s : State) : (sample l s).2.buf = s.buf := rfl
@[simp] theorem sample_host (l : Line) (s : State) : (sample l s).2.host = s.host := rfl
@[simp] theorem sample_replies (l : Line) (s : State) : (sample l s).2.replies = s.replies := rfl

@[simp] theorem halfDelay_cfg (s : State) : (halfDelay s).cfg = s.cfg := rfl
@[simp] theorem halfDelay_rc (s : State) : (halfDelay s).rc = s.rc := rfl
@[simp] theorem halfDelay_timedOut (s : State) : (halfDelay s).timedOut = s.timedOut := rfl
@[simp] theorem halfDelay_ph (s : State) : (halfDelay s).ph = s.ph := rfl
@[simp] theorem halfDelay_rxdata (s : State) : (halfDelay s).rxdata = s.rxdata := rfl
@[simp] theorem halfDelay_delayUs (s : State) : (halfDelay s).delayUs = s.delayUs := rfl
@[simp] theorem halfDelay_buf (s : State) : (halfDelay s).buf = s.buf := rfl
@[simp] theorem halfDelay_host (s : State) : (halfDelay s).host = s.host := rfl
@[simp] theorem halfDelay_replies (s : State) : (halfDelay s).replies = s.replies := rfl

@[simp] theorem driveLow_bus (l : Line) (s : State) : (driveLow l s).bus = s.bus.driveLow l := rfl
@[simp] theorem release_bus (l : Line) (s : State) : (release l s).bus = s.bus.release l := rfl
@[simp] theorem sample_bus (l : Line) (s : State) : (sample l s).2.bus = (s.bus.gpioRead l).2 := rfl
@[simp] theorem sample_value (l : Line) (s : State) : (sample l s).1 = (s.bus.gpioRead l).1 := rfl
@[simp] theorem halfDelay_bus (s : State) : (halfDelay s).bus = s.bus.delay s.delayUs := rfl

@[simp] theorem finish_cfg (r : ResultCode) (s : State) : (finish r s).cfg = s.cfg := rfl
@[simp] theorem finish_timedOut (r : ResultCode) (s : State) : (finish r s).timedOut = s.timedOut := rfl
@[simp] theorem finish_ph (r : ResultCode) (s : State) : (finish r s).ph = s.ph := rfl
@[simp] theorem finish_rxdata (r : ResultCode) (s : State) : (finish r s).rxdata = s.rxdata := rfl
@[simp] theorem finish_delayUs (r : ResultCode) (s : State) : (finish r s).delayUs = s.delayUs := rfl
@[simp] theorem finish_buf (r : ResultCode) (s : State) : (finish r s).buf = s.buf := rfl
@[simp] theorem finish_host (r : ResultCode) (s : State) : (finish r s).host = s.host := rfl
@[simp] theorem finish_replies (r : ResultCode) (s : State) : (finish r s).replies = s.replies := rfl
@[simp] theorem finish_bus (r : ResultCode) (s : State) : (finish r s).bus = s.bus := rfl
@[simp] theorem finish_rc (r : ResultCode) (s : State) : (finish r s).rc = r := rfl

@[simp] theorem reject_cfg (s : State) : (reject s).cfg = s.cfg := rfl
@[simp] theorem reject_ph (s : State) : (reject s).ph = s.ph := rfl
@[simp] theorem reject_rxdata (s : State) : (reject s).rxdata = s.rxdata := rfl
@[simp] theorem reject_delayUs (s : State) : (reject s).delayUs = s.delayUs := rfl
@[simp] theorem reject_buf (s : State) : (reject s).buf = s.buf := rfl
@[simp] theorem reject_host (s : State) : (reject s).host = s.host := rfl
@[simp] theorem reject_replies (s : State) : (reject s).replies = s.replies := rfl
@[simp] theorem reject_bus (s : State) : (reject s).bus = s.bus := rfl
@[simp] theorem reject_rc (s : State) : (reject s).rc = .illegal := rfl
@[simp] theorem reject_timedOut (s : State) : (reject s).timedOut = false := rfl

@[simp] theorem clearTimeout_cfg (s : State) : (clearTimeout s).cfg = s.cfg := rfl
@[simp] theorem clearTimeout_bus (s : State) : (clearTimeout s).bus = s.bus := rfl
@[simp] theorem clearTimeout_rc (s : State) : (clearTimeout s).rc = s.rc := rfl
@[simp] theorem clearTimeout_ph (s : State) : (clearTimeout s).ph = s.ph := rfl
@[simp] theorem clearTimeout_rxdata (s : State) : (clearTimeout s).rxdata = s.rxdata := rfl
@[simp] theorem clearTimeout_delayUs (s : State) : (clearTimeout s).delayUs = s.delayUs := rfl
@[simp] theorem clearTimeout_buf (s : State) : (clearTimeout s).buf = s.buf := rfl
@[simp] theorem clearTimeout_host (s : State) : (clearTimeout s).host = s.host := rfl
@[simp] theorem clearTimeout_replies (s : State) : (clearTimeout s).replies = s.replies := rfl
@[simp] theorem clearTimeout_timedOut (s : State) : (clearTimeout s).timedOut = false := rfl
@[simp] theorem clearTimeout_history (s : State) : (clearTimeout s).history = s.history := rfl
@[simp] theorem finish_history (r : ResultCode) (s : State) : (finish r s).history = s.history := rfl
@[simp] theorem reject_history (s : State) : (reject s).history = s.history := rfl

@[simp] theorem setBuf_cfg (m : List Host.Cell) (s : State) : (setBuf m s).cfg = s.cfg := rfl
@[simp] theorem setBuf_bus (m : List Host.Cell) (s : State) : (setBuf m s).bus = s.bus := rfl
@[simp] theorem setBuf_rc (m : List Host.Cell) (s : State) : (setBuf m s).rc = s.rc := rfl
@[simp] theorem setBuf_timedOut (m : List Host.Cell) (s : State) : (setBuf m s).timedOut = s.timedOut := rfl
@[simp] theorem setBuf_ph (m : List Host.Cell) (s : State) : (setBuf m s).ph = s.ph := rfl
@[simp] theorem setBuf_rxdata (m : List Host.Cell) (s : State) : (setBuf m s).rxdata = s.rxdata := rfl
@[simp] theorem setBuf_delayUs (m : List Host.Cell) (s : State) : (setBuf m s).delayUs = s.delayUs := rfl
@[simp] theorem setBuf_host (m : List Host.Cell) (s : State) : (setBuf m s).host = s.host := rfl
@[simp] theorem setBuf_replies (m : List Host.Cell) (s : State) : (setBuf m s).replies = s.replies := rfl
@[simp] theorem setBuf_buf (m : List Host.Cell) (s : State) : (setBuf m s).buf = m := rfl
@[simp] theorem setBuf_history (m : List Host.Cell) (s : State) : (setBuf m s).history = s.history := rfl

@[simp] theorem storeByte_cfg (i : Nat) (v : Byte) (s : State) : (storeByte i v s).cfg = s.cfg := rfl
@[simp] theorem storeByte_bus (i : Nat) (v : Byte) (s : State) : (storeByte i v s).bus = s.bus := rfl
@[simp] theorem storeByte_rc (i : Nat) (v : Byte) (s : State) : (storeByte i v s).rc = s.rc := rfl
@[simp] theorem storeByte_timedOut (i : Nat) (v : Byte) (s : State) : (storeByte i v s).timedOut = s.timedOut := rfl
@[simp] theorem storeByte_ph (i : Nat) (v : Byte) (s : State) : (storeByte i v s).ph = s.ph := rfl
@[simp] theorem storeByte_rxdata (i : Nat) (v : Byte) (s : State) : (storeByte i v s).rxdata = s.rxdata := rfl
@[simp] theorem storeByte_delayUs (i : Nat) (v : Byte) (s : State) : (storeByte i v s).delayUs = s.delayUs := rfl
@[simp] theorem storeByte_host (i : Nat) (v : Byte) (s : State) : (storeByte i v s).host = s.host := rfl
@[simp] theorem storeByte_replies (i : Nat) (v : Byte) (s : State) : (storeByte i v s).replies = s.replies := rfl
@[simp] theorem storeByte_buf (i : Nat) (v : Byte) (s : State) :
    (storeByte i v s).buf = Memory.write s.buf i v := rfl

theorem State.history_eq (s : State) : s.history = s.bus.history := rfl

/-- What the line operations leave alone: every field but the lines and `STATUS.TO`. -/
structure Carries (s t : State) : Prop where
  cfg : t.cfg = s.cfg
  rc : t.rc = s.rc
  ph : t.ph = s.ph
  rxdata : t.rxdata = s.rxdata
  delayUs : t.delayUs = s.delayUs
  buf : t.buf = s.buf
  host : t.host = s.host
  replies : t.replies = s.replies

theorem Carries.refl (s : State) : Carries s s := ⟨rfl, rfl, rfl, rfl, rfl, rfl, rfl, rfl⟩

theorem Carries.trans {a b c : State} (h : Carries a b) (k : Carries b c) : Carries a c :=
  ⟨k.cfg.trans h.cfg, k.rc.trans h.rc, k.ph.trans h.ph, k.rxdata.trans h.rxdata, k.delayUs.trans h.delayUs,
    k.buf.trans h.buf, k.host.trans h.host, k.replies.trans h.replies⟩

end Sys2Proof.Machine
end

