-- ==== Sys2Proof/Laws/Ops.lean ====
section
/-! SUPPORT. One lemma per shared operation, saying what it can do: the events it adds, in the sequences of Safety, what
it returns, and what it leaves alone. -/

namespace Sys2Proof.Machine

/-- `t` is `s` after the events `es`, `t'` saying whether a wait among them timed out; every field but the lines and
`STATUS.TO` is as before. -/
structure Runs (s t : State) (es : List Event) (t' : Bool) : Prop where
  carries : Carries s t
  grows : s.bus.Grows t.bus
  history : t.history = s.history ++ es
  timedOut : t.timedOut = (s.timedOut || t')

theorem Runs.refl (s : State) : Runs s s [] false :=
  ⟨.refl s, .refl _, (List.append_nil _).symm, (Bool.or_false _).symm⟩

theorem Runs.trans {a b c : State} {es fs : List Event} {x y : Bool} (h : Runs a b es x) (k : Runs b c fs y) :
    Runs a c (es ++ fs) (x || y) :=
  ⟨h.carries.trans k.carries, h.grows.trans k.grows, by rw [k.history, h.history, List.append_assoc],
    by rw [k.timedOut, h.timedOut, Bool.or_assoc]⟩

theorem Runs.cast {s t : State} {es fs : List Event} {x y : Bool} (h : Runs s t es x) (he : es = fs) (hx : x = y) :
    Runs s t fs y := he ▸ hx ▸ h

theorem Runs.delayUs {s t : State} {es : List Event} {x : Bool} (h : Runs s t es x) : t.delayUs = s.delayUs :=
  h.carries.delayUs

theorem Runs.cfg {s t : State} {es : List Event} {x : Bool} (h : Runs s t es x) : t.cfg = s.cfg :=
  h.carries.cfg

/-- The line operations do not look at the buffer. -/
theorem Runs.setBuf {s t : State} {es : List Event} {x : Bool} (h : Runs s t es x) (m : List Host.Cell) :
    Runs (setBuf m s) (setBuf m t) es x :=
  ⟨⟨h.carries.cfg, h.carries.rc, h.carries.ph, h.carries.rxdata, h.carries.delayUs, rfl, h.carries.host,
    h.carries.replies⟩, h.grows, h.history, h.timedOut⟩

theorem driveLow_runs (l : Line) (s : State) : Runs s (driveLow l s) (lowEvents l) false :=
  ⟨⟨rfl, rfl, rfl, rfl, rfl, rfl, rfl, rfl⟩, Bus.driveLow_grows l _, Bus.driveLow_history l _,
    (Bool.or_false _).symm⟩

theorem release_runs (l : Line) (s : State) : Runs s (release l s) (releaseEvents l) false :=
  ⟨⟨rfl, rfl, rfl, rfl, rfl, rfl, rfl, rfl⟩, Bus.release_grows l _, Bus.release_history l _,
    (Bool.or_false _).symm⟩

theorem sample_runs (l : Line) (s : State) : Runs s (sample l s).2 [.read l (sample l s).1] false :=
  ⟨⟨rfl, rfl, rfl, rfl, rfl, rfl, rfl, rfl⟩, Bus.gpioRead_grows l _, Bus.gpioRead_history l _,
    (Bool.or_false _).symm⟩

theorem halfDelay_runs (s : State) : Runs s (halfDelay s) [.delay s.delayUs] false :=
  ⟨⟨rfl, rfl, rfl, rfl, rfl, rfl, rfl, rfl⟩, Bus.delay_grows _ _, Bus.delay_history _ _, (Bool.or_false _).symm⟩

theorem setSda_runs (b : Bool) (s : State) : Runs s (setSda b s) (sdaEvents b) false := by
  cases b
  · exact driveLow_runs .sda s
  · exact release_runs .sda s

theorem IsWait.more {n : Nat} {es : List Event} {t' : Bool} (h : IsWait n es t') :
    IsWait (n + 1) (.read .scl false :: es) t' := by
  rcases h with ⟨k, hk, rfl, rfl⟩ | ⟨rfl, rfl⟩
  · exact .inl ⟨k + 1, by omega, rfl, rfl⟩
  · exact .inr ⟨rfl, rfl⟩

/-- R140: the samples of a wait, and `STATUS.TO` set when it times out. -/
theorem waitSclHighFor_runs (n : Nat) (s : State) :
    ∃ w, IsWait n w (waitSclHighFor n s).1 ∧ Runs s (waitSclHighFor n s).2 w (waitSclHighFor n s).1 := by
  induction n generalizing s with
  | zero =>
    exact ⟨[], .inr ⟨rfl, rfl⟩, ⟨rfl, rfl, rfl, rfl, rfl, rfl, rfl, rfl⟩, .refl _, (List.append_nil _).symm,
      (Bool.or_true _).symm⟩
  | succ n ih =>
    have hs := sample_runs .scl s
    simp only [waitSclHighFor]
    split
    · rename_i hv
      rw [hv] at hs
      exact ⟨[.read .scl true], .inl ⟨0, by omega, rfl, rfl⟩, hs⟩
    · rename_i hv
      rw [Bool.not_eq_true] at hv
      rw [hv] at hs
      obtain ⟨w, hw, hr⟩ := ih (sample .scl s).2
      exact ⟨_, hw.more, (hs.trans hr).cast rfl (Bool.false_or _)⟩

theorem waitSclHigh_runs (s : State) :
    ∃ w, IsWait s.cfg.stretchPolls w (waitSclHigh s).1 ∧ Runs s (waitSclHigh s).2 w (waitSclHigh s).1 :=
  waitSclHighFor_runs _ s

@[simp] theorem waitSclHighFor_latch (n : Nat) (s : State) :
    (waitSclHighFor n s).2.bus.latch = s.bus.latch := by
  induction n generalizing s with
  | zero => rfl
  | succ n ih =>
    simp only [waitSclHighFor]
    split
    · simp
    · simp [ih]

@[simp] theorem raiseScl_latch (s : State) :
    (raiseScl s).2.bus.latch = s.bus.latch.set .scl { dir := false, out := true } := by
  simp [raiseScl, waitSclHigh]

theorem raiseScl_runs (s : State) :
    ∃ w, IsWait s.cfg.stretchPolls w (raiseScl s).1 ∧
      Runs s (raiseScl s).2 (raiseEvents s.delayUs w) (raiseScl s).1 := by
  obtain ⟨w, hw, hr⟩ := waitSclHigh_runs (release .scl s)
  refine ⟨w, hw, ?_⟩
  have h := ((release_runs .scl s).trans hr).trans (halfDelay_runs _)
  rw [hr.delayUs] at h
  exact h.cast rfl (by simp [raiseScl])

theorem sendBit_runs (b : Bool) (s : State) :
    ∃ w, IsWait s.cfg.stretchPolls w (sendBit b s).1 ∧
      Runs s (sendBit b s).2 (writtenBit s.delayUs b w) (sendBit b s).1 := by
  have h1 := (driveLow_runs .scl s).trans (halfDelay_runs _)
  have h2 := h1.trans ((setSda_runs b _).trans (halfDelay_runs _))
  obtain ⟨w, hw, hr⟩ := raiseScl_runs (halfDelay (setSda b (halfDelay (driveLow .scl s))))
  rw [h2.cfg] at hw
  rw [h2.delayUs] at hr
  have hd : (setSda b (halfDelay (driveLow .scl s))).delayUs = s.delayUs := by
    rw [(setSda_runs b _).delayUs]; rfl
  refine ⟨w, hw, (h2.trans hr).cast ?_ (by simp [sendBit])⟩
  simp [writtenBit, hd]

@[simp] theorem sendBit_latch (b : Bool) (s : State) :
    (sendBit b s).2.bus.latch =
      { sda := if b then { dir := false, out := true } else { dir := true, out := false },
        scl := { dir := false, out := true } } := by
  cases b <;> simp [sendBit, setSda, PerLine.set]

theorem sendBits_runs (d : Byte) (n : Nat) (t : Bool) (s : State) :
    ∃ es to', BitsSent s.delayUs s.cfg.stretchPolls d n es to' ∧ (sendBits d n t s).1 = (t || to') ∧
      Runs s (sendBits d n t s).2 es to' := by
  induction n generalizing t s with
  | zero => exact ⟨[], false, ⟨rfl, rfl⟩, (Bool.or_false _).symm, .refl s⟩
  | succ n ih =>
    obtain ⟨w, hw, hr⟩ := sendBit_runs (d.getLsbD n) s
    obtain ⟨es, to', hb, h1, h2⟩ := ih (t || (sendBit (d.getLsbD n) s).1) (sendBit (d.getLsbD n) s).2
    rw [hr.delayUs, hr.cfg] at hb
    exact ⟨_, _, ⟨w, _, es, to', hw, hb, rfl, rfl⟩, by rw [← Bool.or_assoc]; exact h1, hr.trans h2⟩

/-- R141: the events of a written byte, its acknowledgment level and its timeout bit. -/
theorem writeByteCore_runs (d : Byte) (s : State) :
    ∃ es, ByteSent s.delayUs s.cfg.stretchPolls d (writeByteCore d s).ack es (writeByteCore d s).timedOut ∧
      Runs s (writeByteCore d s).state es (writeByteCore d s).timedOut := by
  obtain ⟨bits, tb, hb, h1, h2⟩ := sendBits_runs d 8 false s
  rw [Bool.false_or] at h1
  have h3 := ((driveLow_runs .scl (sendBits d 8 false s).2).trans (release_runs .sda _)).trans (halfDelay_runs _)
  obtain ⟨w, hw, hr⟩ := raiseScl_runs (halfDelay (release .sda (driveLow .scl (sendBits d 8 false s).2)))
  have h4 := ((h2.trans h3).trans hr).trans ((sample_runs .sda _).trans (driveLow_runs .scl _))
  rw [(h2.trans h3).cfg] at hw
  rw [(h2.trans h3).delayUs] at h4
  refine ⟨_, ⟨bits, tb, w, _, hb, hw, rfl, ?_⟩, h4.cast ?_ ?_⟩
  · simp [writeByteCore, h1]
  · simp [ackSlot, h2.delayUs, writeByteCore]
  · simp [writeByteCore, h1]

/-- R144: a written byte leaves SCL driven low and SDA released. -/
@[simp] theorem writeByteCore_latch (d : Byte) (s : State) :
    (writeByteCore d s).state.bus.latch =
      { sda := { dir := false, out := true }, scl := { dir := true, out := false } } := by
  simp [writeByteCore, PerLine.set]

theorem setBit_getLsbD {v : Byte} {n i : Nat} {b : Bool} (hn : n < 8) :
    (setBit v n b).getLsbD i = if i = n then b else v.getLsbD i := by
  rcases Nat.lt_or_ge i 8 with hi | hi
  · have h1 : (1#8 <<< n).getLsbD i = decide (i = n) := by
      rw [BitVec.getLsbD_shiftLeft, BitVec.getLsbD_one]
      by_cases h : i = n
      · subst h; simp [hi]
      · simp [h]; omega
    by_cases h : i = n
    · subst h
      cases b <;> simp [setBit, h1]
    · cases b
      · show (v &&& ~~~(1#8 <<< n)).getLsbD i = _
        rw [BitVec.getLsbD_and, BitVec.getLsbD_not, h1]
        simp [h, hi]
      · show (v ||| (1#8 <<< n)).getLsbD i = _
        rw [BitVec.getLsbD_or, h1]
        simp [h]
  · have : i ≠ n := by omega
    rw [if_neg this, BitVec.getLsbD_of_ge _ _ hi, BitVec.getLsbD_of_ge _ _ hi]

theorem recvBits_value (n : Nat) (v : Byte) (t : Bool) (s : State) {i : Nat} (hn : n ≤ 8) (hi : n ≤ i) :
    (recvBits n v t s).value.getLsbD i = v.getLsbD i := by
  induction n generalizing v t s with
  | zero => rfl
  | succ n ih =>
    simp only [recvBits]
    rw [ih _ _ _ (by omega) (by omega), setBit_getLsbD (by omega), if_neg (by omega)]

theorem recvBits_runs (n : Nat) (v : Byte) (t : Bool) (s : State) (hn : n ≤ 8) :
    ∃ es to', BitsRead s.delayUs s.cfg.stretchPolls (recvBits n v t s).value n es to' ∧
      (recvBits n v t s).timedOut = (t || to') ∧ Runs s (recvBits n v t s).state es to' := by
  induction n generalizing v t s with
  | zero => exact ⟨[], false, ⟨rfl, rfl⟩, (Bool.or_false _).symm, .refl s⟩
  | succ n ih =>
    have h1 := (driveLow_runs .scl s).trans (halfDelay_runs _)
    obtain ⟨w, hw, hr⟩ := raiseScl_runs (halfDelay (driveLow .scl s))
    have h2 := (h1.trans hr).trans (sample_runs .sda _)
    rw [h1.cfg] at hw
    obtain ⟨es, to', hb, h3, h4⟩ := ih
      (setBit v n (sample .sda (raiseScl (halfDelay (driveLow .scl s))).2).1)
      (t || (raiseScl (halfDelay (driveLow .scl s))).1)
      (sample .sda (raiseScl (halfDelay (driveLow .scl s))).2).2 (by omega)
    have hbit : (recvBits (n + 1) v t s).value.getLsbD n =
        (sample .sda (raiseScl (halfDelay (driveLow .scl s))).2).1 := by
      simp only [recvBits]
      rw [recvBits_value n _ _ _ (by omega) (Nat.le_refl n), setBit_getLsbD (by omega), if_pos rfl]
    rw [h2.delayUs, h2.cfg] at hb
    refine ⟨_, _, ⟨w, _, es, to', hw, hb, rfl, rfl⟩, ?_, (h2.trans h4).cast ?_ ?_⟩
    · rw [← Bool.or_assoc]; exact h3
    · rw [hbit]
      simp [readBit]
    · simp

/-- R142: the events of a read byte, its value and its timeout bit. -/
theorem readByteCore_runs (a : Ack) (s : State) :
    ∃ es, ByteRead s.delayUs s.cfg.stretchPolls a (readByteCore a s).value es (readByteCore a s).timedOut ∧
      Runs s (readByteCore a s).state es (readByteCore a s).timedOut := by
  have h0 := release_runs .sda s
  obtain ⟨bits, tb, hb, h1, h2⟩ := recvBits_runs 8 0#8 false (release .sda s) (Nat.le_refl 8)
  rw [Bool.false_or] at h1
  have h3 := ((driveLow_runs .scl (recvBits 8 0#8 false (release .sda s)).state).trans
    (setSda_runs (ackLevel a) _)).trans (halfDelay_runs _)
  obtain ⟨w, hw, hr⟩ := raiseScl_runs
    (halfDelay (setSda (ackLevel a) (driveLow .scl (recvBits 8 0#8 false (release .sda s)).state)))
  have h5 := (h0.trans h2).trans h3
  have h4 := (h5.trans hr).trans (driveLow_runs .scl _)
  rw [h5.cfg] at hw
  rw [h5.delayUs] at h4
  have hd : (setSda (ackLevel a) (driveLow .scl (recvBits 8 0#8 false (release .sda s)).state)).delayUs =
      s.delayUs := by
    rw [(setSda_runs _ _).delayUs, driveLow_delayUs, (h0.trans h2).delayUs]
  rw [hd] at h4
  rw [release_delayUs, release_cfg] at hb
  simp only [readByteCore]
  refine ⟨releaseEvents .sda ++ bits ++ ninthClock s.delayUs (ackLevel a) w,
    ⟨bits, tb, w, _, hb, hw, rfl, by rw [h1]⟩, h4.cast ?_ ?_⟩
  · simp [ninthClock]
  · simp [h1]

/-- R144: a read byte leaves SCL driven low and SDA at the level it acknowledged with. -/
@[simp] theorem readByteCore_latch (a : Ack) (s : State) :
    (readByteCore a s).state.bus.latch =
      { sda := if ackLevel a then { dir := false, out := true } else { dir := true, out := false },
        scl := { dir := true, out := false } } := by
  cases a <;> simp [readByteCore, ackLevel, setSda, PerLine.set]

/-- R180. -/
theorem startSeq_runs (s : State) : Runs s (startSeq s) (startEvents s.delayUs) false :=
  (((driveLow_runs .sda s).trans (halfDelay_runs _)).trans (driveLow_runs .scl _)).cast rfl rfl

@[simp] theorem startSeq_latch (s : State) :
    (startSeq s).bus.latch =
      { sda := { dir := true, out := false }, scl := { dir := true, out := false } } := by
  simp [startSeq, PerLine.set]

/-- R181. -/
theorem rstartSeq_runs (s : State) :
    ∃ w, IsWait s.cfg.stretchPolls w (rstartSeq s).1 ∧
      Runs s (rstartSeq s).2 (rstartEvents s.delayUs w) (rstartSeq s).1 := by
  have h1 := (release_runs .sda s).trans (halfDelay_runs _)
  obtain ⟨w, hw, hr⟩ := raiseScl_runs (halfDelay (release .sda s))
  have h2 := (h1.trans hr).trans (((driveLow_runs .sda _).trans (halfDelay_runs _)).trans (driveLow_runs .scl _))
  rw [h1.cfg] at hw
  refine ⟨w, hw, h2.cast ?_ (by simp [rstartSeq])⟩
  have hd := hr.delayUs
  simp [rstartEvents, hd]

@[simp] theorem rstartSeq_latch (s : State) :
    (rstartSeq s).2.bus.latch =
      { sda := { dir := true, out := false }, scl := { dir := true, out := false } } := by
  simp [rstartSeq, PerLine.set]

/-- R182. -/
theorem stopSeq_runs (s : State) :
    ∃ w, IsWait s.cfg.stretchPolls w (stopSeq s).1 ∧
      Runs s (stopSeq s).2 (stopEvents s.delayUs w) (stopSeq s).1 := by
  have h1 := (driveLow_runs .sda s).trans (halfDelay_runs _)
  obtain ⟨w, hw, hr⟩ := raiseScl_runs (halfDelay (driveLow .sda s))
  have h2 := (h1.trans hr).trans ((release_runs .sda _).trans (halfDelay_runs _))
  rw [h1.cfg] at hw
  refine ⟨w, hw, h2.cast ?_ (by simp [stopSeq])⟩
  have hd := hr.delayUs
  simp [stopEvents, hd]

/-- R192: the stop leaves both lines released. -/
@[simp] theorem stopSeq_latch (s : State) :
    (stopSeq s).2.bus.latch =
      { sda := { dir := false, out := true }, scl := { dir := false, out := true } } := by
  simp [stopSeq, PerLine.set]

/-- The model's legality test is the table of R97. -/
theorem legal_iff (i : Instr) (s : State) : legal i s.ph s.cfg.bufSize = true ↔ LegalNow i s := by
  cases i <;> simp [legal, requiredPhase, Instr.fits, LegalNow]

/-- The command cycle, where the command is legal. -/
theorem issue_legal {i : Instr} {s : State} (h : legal i s.ph s.cfg.bufSize = true) (body : State → Answer) :
    issue i body s = body (clearTimeout s) := by
  simp [issue, h]

/-- The command cycle, where it is not. -/
theorem issue_illegal {i : Instr} {s : State} (h : legal i s.ph s.cfg.bufSize = false) (body : State → Answer) :
    issue i body s = .next (reject s) := by
  simp [issue, h]

end Sys2Proof.Machine
end

