-- ==== Sys2Proof/Laws/Exec.lean ====
section
/-! SUPPORT. What each command answers: its body where it is legal, and `reject` where it is not (30_encoding.md R95 to
R97). Later proofs cite these and do not unfold a meaning. -/

namespace Sys2Proof.Machine

/-- A command that is not legal now is rejected. -/
theorem exec_illegal {i : Instr} {s : State} (h : ¬ LegalNow i s) : exec i s = .next (reject s) := by
  have h' : legal i s.ph s.cfg.bufSize = false := by rw [← Bool.not_eq_true, legal_iff]; exact h
  cases i <;>
    simp only [exec, execDriveLow, execRelease, execSample, execHalfDelay, execSetDelay, execStart, execRstart,
      execStop, execWriteByte, execReadByte, execWriteMsg, execReadMsg, issue_illegal h']

theorem exec_driveLow (l : Line) (s : State) :
    exec (.driveLow l) s = .next (finish .ok (driveLow l (clearTimeout s))) := by
  simp only [exec, execDriveLow, issue_legal ((legal_iff (.driveLow l) s).2 trivial)]

theorem exec_release (l : Line) (s : State) :
    exec (.release l) s = .next (finish .ok (release l (clearTimeout s))) := by
  simp only [exec, execRelease, issue_legal ((legal_iff (.release l) s).2 trivial)]

theorem exec_sample (l : Line) (s : State) :
    exec (.sample l) s = .next (finish .ok
      { (sample l (clearTimeout s)).2 with rxdata := byteOfLevel (sample l (clearTimeout s)).1 }) := by
  simp only [exec, execSample, issue_legal ((legal_iff (.sample l) s).2 trivial)]

theorem exec_halfDelay (s : State) :
    exec .halfDelay s = .next (finish .ok (halfDelay (clearTimeout s))) := by
  simp only [exec, execHalfDelay, issue_legal ((legal_iff .halfDelay s).2 trivial)]

theorem exec_setDelay (us : Half) (s : State) :
    exec (.setDelay us) s = .next (finish .ok { clearTimeout s with delayUs := us }) := by
  simp only [exec, execSetDelay, issue_legal ((legal_iff (.setDelay us) s).2 trivial)]

theorem exec_start {s : State} (h : s.ph = .idle) :
    exec .start s = .next (finish .ok { startSeq (clearTimeout s) with ph := .active }) := by
  simp only [exec, execStart, issue_legal ((legal_iff .start s).2 h)]

theorem exec_rstart {s : State} (h : s.ph = .active) :
    exec .rstart s = .next (finish (readResult s.cfg.timeoutIsError (rstartSeq (clearTimeout s)).1)
      (rstartSeq (clearTimeout s)).2) := by
  simp only [exec, execRstart, issue_legal ((legal_iff .rstart s).2 h), clearTimeout_cfg]

theorem exec_stop {s : State} (h : s.ph = .active) :
    exec .stop s = .next (finish (readResult s.cfg.timeoutIsError (stopSeq (clearTimeout s)).1)
      { (stopSeq (clearTimeout s)).2 with ph := .idle }) := by
  simp only [exec, execStop, issue_legal ((legal_iff .stop s).2 h), clearTimeout_cfg]

theorem exec_writeByte (d : Byte) {s : State} (h : s.ph = .active) :
    exec (.writeByte d) s =
      .next (finish (byteResult s.cfg.timeoutIsError (writeByteCore d (clearTimeout s)).ack
          (writeByteCore d (clearTimeout s)).timedOut)
        { (writeByteCore d (clearTimeout s)).state with
          rxdata := byteOfLevel (writeByteCore d (clearTimeout s)).ack }) := by
  simp only [exec, execWriteByte, issue_legal ((legal_iff (.writeByte d) s).2 h), clearTimeout_cfg]

theorem exec_readByte (a : Ack) {s : State} (h : s.ph = .active) :
    exec (.readByte a) s =
      .next (finish (readResult s.cfg.timeoutIsError (readByteCore a (clearTimeout s)).timedOut)
        { (readByteCore a (clearTimeout s)).state with rxdata := (readByteCore a (clearTimeout s)).value }) := by
  simp only [exec, execReadByte, issue_legal ((legal_iff (.readByte a) s).2 h), clearTimeout_cfg]

theorem exec_writeMsg (addr : Addr7) (len : Half) {s : State} (h : LegalNow (.writeMsg addr len) s) :
    exec (.writeMsg addr len) s =
      answerOf (sendPayload len.toNat 0 (openMessage addr .write (clearTimeout s)).1
        (openMessage addr .write (clearTimeout s)).2) := by
  simp only [exec, execWriteMsg, issue_legal ((legal_iff (.writeMsg addr len) s).2 h)]

theorem exec_readMsg (addr : Addr7) (len : Half) {s : State} (h : LegalNow (.readMsg addr len) s) :
    exec (.readMsg addr len) s =
      .next (closeMessage
        (readPayload len.toNat (openMessage addr .read (clearTimeout s)).1
          (openMessage addr .read (clearTimeout s)).2).1
        (readPayload len.toNat (openMessage addr .read (clearTimeout s)).1
          (openMessage addr .read (clearTimeout s)).2).2) := by
  simp only [exec, execReadMsg, issue_legal ((legal_iff (.readMsg addr len) s).2 h)]

end Sys2Proof.Machine
end

