-- ==== Sys2Proof/Laws/Memory.lean ====
section
/-! SUPPORT. The buffer: a read after a write, and the canonical form kept (20_memory.md R63). -/

namespace Sys2Proof.Machine

theorem Memory.read_write (m : List Host.Cell) (i j : Nat) (v : Byte) :
    Memory.read (Memory.write m i v) j = if j = i then some v else Memory.read m j := by
  induction m with
  | nil => simp [Memory.write, Memory.read]
  | cons c rest ih =>
    obtain ⟨a, x⟩ := c
    simp only [Memory.write]
    split
    · simp only [Memory.read]
    · split
      · subst_vars
        simp only [Memory.read]
        split <;> rfl
      · simp only [Memory.read, ih]
        by_cases h1 : j = a
        · subst h1
          rw [if_pos rfl, if_pos rfl, if_neg (by omega)]
        · rw [if_neg h1, if_neg h1]

theorem Memory.mem_write {m : List Host.Cell} {i : Nat} {v : Byte} {c : Host.Cell}
    (h : c ∈ Memory.write m i v) : c = (i, v) ∨ c ∈ m := by
  induction m with
  | nil => simpa [Memory.write] using h
  | cons d rest ih =>
    obtain ⟨a, x⟩ := d
    simp only [Memory.write] at h
    split at h
    · simpa using h
    · split at h
      · rcases List.mem_cons.1 h with h | h
        · exact .inl h
        · exact .inr (List.mem_cons_of_mem _ h)
      · rcases List.mem_cons.1 h with h | h
        · exact .inr (h ▸ List.mem_cons_self)
        · exact (ih h).imp_right (List.mem_cons_of_mem _)

theorem Memory.wf_write {m : List Host.Cell} (hm : Memory.wf m) (i : Nat) (v : Byte) :
    Memory.wf (Memory.write m i v) := by
  induction m with
  | nil => simp [Memory.write, Memory.wf]
  | cons c rest ih =>
    obtain ⟨a, x⟩ := c
    obtain ⟨hlo, hrest⟩ := List.pairwise_cons.1 hm
    simp only [Memory.write]
    split
    · rename_i hlt
      refine List.pairwise_cons.2 ⟨fun d hd => ?_, hm⟩
      rcases List.mem_cons.1 hd with rfl | hd
      · exact hlt
      · exact Nat.lt_trans hlt (hlo d hd)
    · split
      · rename_i _ heq
        exact List.pairwise_cons.2 ⟨fun d hd => heq ▸ hlo d hd, hrest⟩
      · refine List.pairwise_cons.2 ⟨fun d hd => ?_, ih hrest⟩
        rcases Memory.mem_write hd with rfl | hd
        · show a < i
          omega
        · exact hlo d hd

theorem Memory.within_write {size : Nat} {m : List Host.Cell} (hm : Memory.within size m) {i : Nat}
    (hi : i < size) (v : Byte) : Memory.within size (Memory.write m i v) := by
  intro c hc
  rcases Memory.mem_write hc with rfl | hc
  · exact hi
  · exact hm c hc

theorem Memory.wf_nil : Memory.wf [] := List.Pairwise.nil

end Sys2Proof.Machine
end

