-- ==== Sys2Proof/Laws/Messages.lean ====
section
/-! SUPPORT. The parts of a message: the address byte, the two payload loops and the close (42_framing.md R188 to R191). -/

namespace Sys2Proof.Machine

theorem readResult_eq (p t : Bool) : readResult p t = if t = true ∧ p = true then .timeout else .ok := by
  cases p <;> cases t <;> rfl

theorem byteResult_ne_illegal (p a t : Bool) : byteResult p a t ≠ .illegal := by
  cases p <;> cases a <;> cases t <;> decide

theorem readResult_ne_illegal (p t : Bool) : readResult p t ≠ .illegal := by
  cases p <;> cases t <;> decide

@[simp] theorem andThen_ok (r : ResultCode) : r.andThen .ok = r := by cases r <;> rfl

@[simp] theorem ok_andThen (r : ResultCode) : ResultCode.ok.andThen r = r := rfl

theorem andThen_assoc (a b c : ResultCode) : (a.andThen b).andThen c = a.andThen (b.andThen c) := by
  cases a <;> rfl

theorem andThen_ne_illegal {a b : ResultCode} (ha : a ≠ .illegal) (hb : b ≠ .illegal) :
    a.andThen b ≠ .illegal := by
  cases a <;> simp_all [ResultCode.andThen]

/-- The start and the address byte: their events and the result. -/
theorem openMessage_runs (addr : Addr7) (rw : Direction) (s : State) :
    ∃ e ack t', ByteSent s.delayUs s.cfg.stretchPolls (addressByte addr rw) ack e t' ∧
      (openMessage addr rw s).1 = byteResult s.cfg.timeoutIsError ack t' ∧
      Runs s (openMessage addr rw s).2 (startEvents s.delayUs ++ e) t' := by
  have h1 := startSeq_runs s
  obtain ⟨e, he, hr⟩ := writeByteCore_runs (addressByte addr rw) (startSeq s)
  rw [h1.delayUs, h1.cfg] at he
  exact ⟨e, _, _, he, rfl, (h1.trans hr).cast rfl (Bool.false_or _)⟩

/-- R188: once the result is not `OK`, no payload byte follows. -/
theorem sendPayload_failed (n i : Nat) {r : ResultCode} (s : State) (h : r ≠ .ok) :
    sendPayload n i r s = .running r s := by
  cases n <;> cases r <;> simp_all [sendPayload]

/-- R190: a payload of `n + m` bytes is its first `n`, then the other `m` with the result so far. -/
theorem sendPayload_add (n m i : Nat) (r : ResultCode) (s : State) :
    sendPayload (n + m) i r s =
      match sendPayload n i r s with
      | .running r' t => sendPayload m (i + n) r' t
      | .stopped f => .stopped f := by
  induction n generalizing i r s with
  | zero => simp [sendPayload]
  | succ n ih =>
    rw [show n + 1 + m = (n + m) + 1 by omega]
    by_cases hr : r = .ok
    · subst hr
      simp only [sendPayload]
      split
      · rfl
      · rw [ih, show i + 1 + n = i + (n + 1) by omega]
    · simp only [sendPayload_failed _ _ _ hr]

/-- R190, the payload loop: where every byte it comes to is written, it sends what `PayloadSent` says. -/
theorem sendPayload_runs (n i : Nat) (s : State) (h : ∀ j, i ≤ j → j < i + n → (Memory.read s.buf j).isSome = true) :
    ∃ t es r t', sendPayload n i .ok s = .running r t ∧
      PayloadSent s.delayUs s.cfg.stretchPolls s.cfg.timeoutIsError s.buf n i es r t' ∧ Runs s t es t' := by
  induction n generalizing i s with
  | zero => exact ⟨s, [], .ok, false, rfl, ⟨rfl, rfl, rfl⟩, .refl s⟩
  | succ n ih =>
    obtain ⟨d, hd⟩ := Option.isSome_iff_exists.1 (h i (Nat.le_refl i) (by omega))
    obtain ⟨e, he, hr⟩ := writeByteCore_runs d s
    simp only [sendPayload, hd]
    by_cases hok : byteResult s.cfg.timeoutIsError (writeByteCore d s).ack (writeByteCore d s).timedOut = .ok
    · rw [hok]
      obtain ⟨t, es, r, t', h1, h2, h3⟩ := ih (i + 1) (writeByteCore d s).state
        (fun j hj hj' => by rw [hr.carries.buf]; exact h j (by omega) (by omega))
      rw [hr.delayUs, hr.cfg, hr.carries.buf] at h2
      refine ⟨t, _, r, _, h1, ⟨d, _, e, _, hd, he, ?_⟩, hr.trans h3⟩
      rw [if_pos hok]
      exact ⟨es, t', h2, rfl, rfl⟩
    · rw [sendPayload_failed n (i + 1) _ hok]
      refine ⟨_, e, _, _, rfl, ⟨d, _, e, _, hd, he, ?_⟩, hr⟩
      rw [if_neg hok]
      exact ⟨rfl, rfl, rfl⟩

/-- R64: the payload loop stops only at an unwritten byte, all before it being written. -/
theorem sendPayload_stopped (n i : Nat) (r : ResultCode) (s : State) {f : Fault}
    (h : sendPayload n i r s = .stopped f) :
    ∃ k, i ≤ k ∧ k < i + n ∧ f = .bufUnwritten k ∧ Memory.read s.buf k = none ∧
      ∀ j, i ≤ j → j < k → (Memory.read s.buf j).isSome = true := by
  induction n generalizing i r s with
  | zero => simp [sendPayload] at h
  | succ n ih =>
    by_cases hr : r = .ok
    · subst hr
      simp only [sendPayload] at h
      split at h
      · rename_i hd
        refine ⟨i, Nat.le_refl i, by omega, by simpa using h.symm, hd, fun j hj hj' => by omega⟩
      · rename_i d hd
        have hb : (writeByteCore d s).state.buf = s.buf := by
          obtain ⟨_, _, hw⟩ := writeByteCore_runs d s
          exact hw.carries.buf
        obtain ⟨k, hk1, hk2, hf, hn, hall⟩ := ih _ _ _ h
        rw [hb] at hn hall
        refine ⟨k, by omega, by omega, hf, hn, fun j hj hj' => ?_⟩
        by_cases hji : j = i
        · subst hji; simp [hd]
        · exact hall j (by omega) hj'
    · rw [sendPayload_failed _ _ _ hr] at h
      simp at h

/-- R191, the payload loop: `n` bytes, stored from index `i` on, whatever the result so far. -/
theorem recvPayload_runs (n i : Nat) (r : ResultCode) (s : State) :
    ∃ vs es r' t', vs.length = n ∧
      PayloadRead s.delayUs s.cfg.stretchPolls s.cfg.timeoutIsError vs es r' t' ∧
      (recvPayload n i r s).1 = r.andThen r' ∧
      (∀ a, Memory.read (recvPayload n i r s).2.buf a =
        if i ≤ a ∧ a < i + n then vs[a - i]? else Memory.read s.buf a) ∧
      Runs s (setBuf s.buf (recvPayload n i r s).2) es t' := by
  induction n generalizing i r s with
  | zero =>
    exact ⟨[], [], .ok, false, rfl, ⟨rfl, rfl, rfl⟩, (andThen_ok r).symm,
      fun a => by rw [if_neg (by omega)]; rfl, .refl s⟩
  | succ n ih =>
    obtain ⟨e, he, hr⟩ := readByteCore_runs (ackFor n) s
    simp only [recvPayload]
    generalize readByteCore (ackFor n) s = b at *
    obtain ⟨vs, es, r', t', hlen, hp, h1, h2, h3⟩ := ih (i + 1)
      (r.andThen (readResult s.cfg.timeoutIsError b.timedOut)) (storeByte i b.value b.state)
    simp only [storeByte_delayUs, storeByte_cfg, storeByte_buf, hr.delayUs, hr.cfg, hr.carries.buf] at hp h2
    generalize recvPayload n (i + 1) (r.andThen (readResult s.cfg.timeoutIsError b.timedOut))
      (storeByte i b.value b.state) = q at *
    refine ⟨b.value :: vs, e ++ es, _, _, by simp [hlen],
      ⟨e, b.timedOut, es, r', t', ?_, hp, rfl, rfl, rfl⟩, ?_, ?_, ?_⟩
    · have : ackFor n = if vs = [] then .nack else .ack := by
        cases n with
        | zero => rw [if_pos (List.length_eq_zero_iff.1 hlen)]; rfl
        | succ n => rw [if_neg (fun h => by simp [h] at hlen)]; rfl
      rw [← this]; exact he
    · rw [h1, andThen_assoc]
    · intro a
      rw [h2 a]
      by_cases ha : a = i
      · subst ha
        rw [if_neg (by omega), if_pos (by omega), Memory.read_write, if_pos rfl]
        simp
      · by_cases ha2 : i + 1 ≤ a ∧ a < i + 1 + n
        · rw [if_pos ha2, if_pos (by omega), show a - i = (a - (i + 1)) + 1 by omega, List.getElem?_cons_succ]
        · rw [if_neg ha2, if_neg (by omega), Memory.read_write, if_neg ha]
    · have h4 : Runs b.state (setBuf b.state.buf q.2) es t' := h3.setBuf b.state.buf
      rw [hr.carries.buf] at h4
      exact hr.trans h4

/-- R188: the stop of a message and the result it ends with. -/
theorem closeMessage_runs (r : ResultCode) (s : State) :
    ∃ w t', IsWait s.cfg.stretchPolls w t' ∧
      (closeMessage r s).rc = r.andThen (readResult s.cfg.timeoutIsError t') ∧
      (closeMessage r s).bus.latch =
        { sda := { dir := false, out := true }, scl := { dir := false, out := true } } ∧
      Runs s { closeMessage r s with rc := s.rc } (stopEvents s.delayUs w) t' := by
  obtain ⟨w, hw, ⟨c1, c2, c3, c4, c5, c6, c7, c8⟩, hg, hh, ht⟩ := stopSeq_runs s
  exact ⟨w, _, hw, rfl, stopSeq_latch s, ⟨c1, rfl, c3, c4, c5, c6, c7, c8⟩, hg, hh, ht⟩

end Sys2Proof.Machine
end

