-- ==== Sys2Proof/Laws/Advance.lean ====
section
/-! SUPPORT. What every command does to the parts of the state that no command owns: said once for `exec`, so that the
rules of the whole machine need no case split over the meanings. -/

namespace Sys2Proof.Machine

/-- A canonical buffer inside `BUF_SIZE` (R63). -/
def BufferOk (s : State) : Prop := Memory.wf s.buf ∧ Memory.within s.cfg.bufSize s.buf

/-- What a command keeps: the configuration, the host's side, the growth of the records, a well-formed buffer. -/
structure Advances (s t : State) : Prop where
  cfg : t.cfg = s.cfg
  host : t.host = s.host
  replies : t.replies = s.replies
  grows : s.bus.Grows t.bus
  buffer : BufferOk s → BufferOk t

theorem Advances.trans {a b c : State} (h : Advances a b) (k : Advances b c) : Advances a c :=
  ⟨k.cfg.trans h.cfg, k.host.trans h.host, k.replies.trans h.replies, h.grows.trans k.grows,
    fun x => k.buffer (h.buffer x)⟩

/-- Only the registers an engine command writes differ. -/
theorem Advances.of_same {s t : State} (hc : t.cfg = s.cfg) (hh : t.host = s.host) (hr : t.replies = s.replies)
    (hb : t.bus = s.bus) (hm : t.buf = s.buf) : Advances s t :=
  ⟨hc, hh, hr, hb ▸ .refl _, fun h => by unfold BufferOk at *; rw [hc, hm]; exact h⟩

theorem Runs.advances {s t : State} {es : List Event} {x : Bool} (h : Runs s t es x) : Advances s t :=
  ⟨h.carries.cfg, h.carries.host, h.carries.replies, h.grows, fun hb => by
    unfold BufferOk at *; rw [h.carries.cfg, h.carries.buf]; exact hb⟩

theorem finish_advances (r : ResultCode) (s : State) : Advances s (finish r s) := .of_same rfl rfl rfl rfl rfl

theorem clearTimeout_advances (s : State) : Advances s (clearTimeout s) := .of_same rfl rfl rfl rfl rfl

theorem reject_advances (s : State) : Advances s (reject s) := .of_same rfl rfl rfl rfl rfl

theorem storeByte_advances {i : Nat} {s : State} (hi : i < s.cfg.bufSize) (v : Byte) :
    Advances s (storeByte i v s) :=
  ⟨rfl, rfl, rfl, .refl _, fun h => ⟨Memory.wf_write h.1 i v, Memory.within_write h.2 hi v⟩⟩

theorem recvPayload_advances (n i : Nat) (r : ResultCode) (s : State) (h : i + n ≤ s.cfg.bufSize) :
    Advances s (recvPayload n i r s).2 := by
  induction n generalizing i r s with
  | zero => exact .of_same rfl rfl rfl rfl rfl
  | succ n ih =>
    obtain ⟨_, _, hr⟩ := readByteCore_runs (ackFor n) s
    simp only [recvPayload]
    generalize readByteCore (ackFor n) s = b at *
    have hc : b.state.cfg = s.cfg := hr.cfg
    exact (hr.advances.trans (storeByte_advances (by rw [hc]; omega) b.value)).trans
      (ih (i + 1) _ _ (by rw [storeByte_cfg, hc]; omega))

theorem readPayload_advances (n : Nat) (r : ResultCode) (s : State) (h : n ≤ s.cfg.bufSize) :
    Advances s (readPayload n r s).2 := by
  cases r with
  | ok => exact recvPayload_advances n 0 .ok s (by omega)
  | nack => exact .of_same rfl rfl rfl rfl rfl
  | timeout => exact .of_same rfl rfl rfl rfl rfl
  | illegal => exact .of_same rfl rfl rfl rfl rfl

theorem sendPayload_advances (n i : Nat) (r : ResultCode) (s : State) {r' : ResultCode} {t : State}
    (h : sendPayload n i r s = .running r' t) : Advances s t := by
  induction n generalizing i r s with
  | zero =>
    simp only [sendPayload, Progress.running.injEq] at h
    exact h.2 ▸ .of_same rfl rfl rfl rfl rfl
  | succ n ih =>
    by_cases hr : r = .ok
    · subst hr
      simp only [sendPayload] at h
      split at h
      · simp at h
      · rename_i d _
        obtain ⟨_, _, hw⟩ := writeByteCore_runs d s
        exact hw.advances.trans (ih _ _ _ h)
    · rw [sendPayload_failed _ _ _ hr] at h
      simp only [Progress.running.injEq] at h
      exact h.2 ▸ .of_same rfl rfl rfl rfl rfl

theorem openMessage_advances (addr : Addr7) (rw : Direction) (s : State) :
    Advances s (openMessage addr rw s).2 := by
  obtain ⟨_, _, _, _, _, h⟩ := openMessage_runs addr rw s
  exact h.advances

theorem closeMessage_advances (r : ResultCode) (s : State) : Advances s (closeMessage r s) := by
  obtain ⟨_, _, h⟩ := stopSeq_runs s
  exact h.advances.trans (finish_advances _ _)

/-- What every command keeps, legal or not. -/
theorem exec_advances {i : Instr} {s t : State} (h : exec i s = .next t) : Advances s t := by
  by_cases hl : LegalNow i s
  · have h0 := clearTimeout_advances s
    cases i with
    | driveLow l =>
      rw [exec_driveLow, Host.Outcome.next.injEq] at h
      exact h ▸ (h0.trans (driveLow_runs l _).advances).trans (finish_advances _ _)
    | release l =>
      rw [exec_release, Host.Outcome.next.injEq] at h
      exact h ▸ (h0.trans (release_runs l _).advances).trans (finish_advances _ _)
    | sample l =>
      rw [exec_sample, Host.Outcome.next.injEq] at h
      have h1 := h0.trans (sample_runs l _).advances
      exact h ▸ ⟨h1.cfg, h1.host, h1.replies, h1.grows, h1.buffer⟩
    | halfDelay =>
      rw [exec_halfDelay, Host.Outcome.next.injEq] at h
      exact h ▸ (h0.trans (halfDelay_runs _).advances).trans (finish_advances _ _)
    | setDelay us =>
      rw [exec_setDelay, Host.Outcome.next.injEq] at h
      exact h ▸ .of_same rfl rfl rfl rfl rfl
    | start =>
      rw [exec_start hl, Host.Outcome.next.injEq] at h
      have h1 := h0.trans (startSeq_runs _).advances
      generalize startSeq (clearTimeout s) = b at *
      exact h ▸ ⟨h1.cfg, h1.host, h1.replies, h1.grows, h1.buffer⟩
    | rstart =>
      rw [exec_rstart hl, Host.Outcome.next.injEq] at h
      obtain ⟨_, _, hr⟩ := rstartSeq_runs (clearTimeout s)
      have h1 := h0.trans hr.advances
      generalize rstartSeq (clearTimeout s) = b at *
      exact h ▸ h1.trans (finish_advances _ _)
    | stop =>
      rw [exec_stop hl, Host.Outcome.next.injEq] at h
      obtain ⟨_, _, hr⟩ := stopSeq_runs (clearTimeout s)
      have h1 := h0.trans hr.advances
      generalize stopSeq (clearTimeout s) = b at *
      exact h ▸ ⟨h1.cfg, h1.host, h1.replies, h1.grows, h1.buffer⟩
    | writeByte d =>
      rw [exec_writeByte d hl, Host.Outcome.next.injEq] at h
      obtain ⟨_, _, hr⟩ := writeByteCore_runs d (clearTimeout s)
      have h1 := h0.trans hr.advances
      generalize writeByteCore d (clearTimeout s) = b at *
      exact h ▸ ⟨h1.cfg, h1.host, h1.replies, h1.grows, h1.buffer⟩
    | readByte a =>
      rw [exec_readByte a hl, Host.Outcome.next.injEq] at h
      obtain ⟨_, _, hr⟩ := readByteCore_runs a (clearTimeout s)
      have h1 := h0.trans hr.advances
      generalize readByteCore a (clearTimeout s) = b at *
      exact h ▸ ⟨h1.cfg, h1.host, h1.replies, h1.grows, h1.buffer⟩
    | writeMsg addr len =>
      rw [exec_writeMsg addr len hl] at h
      have h1 := h0.trans (openMessage_advances addr .write _)
      generalize openMessage addr .write (clearTimeout s) = a at *
      cases hs : sendPayload len.toNat 0 a.1 a.2 with
      | running r u =>
        rw [hs] at h
        have h2 : closeMessage r u = t := by simpa [answerOf] using h
        exact h2 ▸ (h1.trans (sendPayload_advances _ _ _ _ hs)).trans (closeMessage_advances r u)
      | stopped f =>
        rw [hs] at h
        simp [answerOf] at h
    | readMsg addr len =>
      rw [exec_readMsg addr len hl, Host.Outcome.next.injEq] at h
      have h1 := h0.trans (openMessage_advances addr .read _)
      generalize openMessage addr .read (clearTimeout s) = a at *
      have h2 := h1.trans (readPayload_advances len.toNat a.1 a.2 (by rw [h1.cfg]; exact hl.2))
      exact h ▸ h2.trans (closeMessage_advances _ _)
  · rw [exec_illegal hl, Host.Outcome.next.injEq] at h
    exact h ▸ reject_advances s

end Sys2Proof.Machine
end

