-- ==== Sys2Proof/Laws/Decode.lean ====
section
/-! SUPPORT. The fields of the formats (30_encoding.md R82 to R88): what the decoder reads back from each. -/

namespace Sys2Proof

/-- A field of a word, bit by bit. -/
theorem bitField_getLsbD (w : Word) (lo n i : Nat) :
    (bitField w lo n).getLsbD i = (decide (i < n) && w.getLsbD (lo + i)) := by
  simp [bitField, BitVec.getLsbD_extractLsb']

/-- Two words are equal when their 32 bits are. -/
theorem word_ext {v w : Word} (h : ∀ i < 32, v.getLsbD i = w.getLsbD i) : v = w :=
  BitVec.eq_of_getLsbD_eq h

theorem formatN_getLsbD (opc : BitVec 4) (i : Nat) :
    (formatN opc).getLsbD i = if i < 28 then false else opc.getLsbD (i - 28) := by
  simp only [formatN, BitVec.getLsbD_append]
  by_cases h : i < 28 <;> simp [h]

theorem formatBit_getLsbD (opc : BitVec 4) (b : BitVec 1) (i : Nat) :
    (formatBit opc b).getLsbD i =
      if i < 1 then b.getLsbD i else if i < 28 then false else opc.getLsbD (i - 28) := by
  simp only [formatBit, BitVec.getLsbD_append]
  by_cases h : i < 1
  · simp [h]
  · by_cases h2 : i < 28
    · simp [h, h2, show i - 1 < 27 by omega]
    · simp [h, h2, show ¬ i - 1 < 27 by omega, show i - 1 - 27 = i - 28 by omega]

theorem formatB_getLsbD (opc : BitVec 4) (d : Byte) (i : Nat) :
    (formatB opc d).getLsbD i =
      if i < 8 then d.getLsbD i else if i < 28 then false else opc.getLsbD (i - 28) := by
  simp only [formatB, BitVec.getLsbD_append]
  by_cases h : i < 8
  · simp [h]
  · by_cases h2 : i < 28
    · simp [h, h2, show i - 8 < 20 by omega]
    · simp [h, h2, show ¬ i - 8 < 20 by omega, show i - 8 - 20 = i - 28 by omega]

theorem formatI_getLsbD (opc : BitVec 4) (imm : Half) (i : Nat) :
    (formatI opc imm).getLsbD i =
      if i < 8 then false else if i < 24 then imm.getLsbD (i - 8)
      else if i < 28 then false else opc.getLsbD (i - 28) := by
  simp only [formatI, BitVec.getLsbD_append]
  by_cases h : i < 8
  · simp [h]
  · by_cases h2 : i < 24
    · simp [h, h2, show i - 8 < 16 by omega]
    · by_cases h3 : i < 28
      · simp [h, h2, h3, show ¬ i - 8 < 16 by omega, show i - 8 - 16 < 4 by omega]
      · simp [h, h2, h3, show ¬ i - 8 < 16 by omega, show ¬ i - 8 - 16 < 4 by omega,
          show i - 8 - 16 - 4 = i - 28 by omega]

theorem formatM_getLsbD (opc : BitVec 4) (len : Half) (addr : Addr7) (i : Nat) :
    (formatM opc len addr).getLsbD i =
      if i < 7 then addr.getLsbD i else if i < 8 then false else if i < 24 then len.getLsbD (i - 8)
      else if i < 28 then false else opc.getLsbD (i - 28) := by
  simp only [formatM, BitVec.getLsbD_append]
  by_cases h : i < 7
  · simp [h]
  · by_cases h1 : i < 8
    · simp [h, h1, show i - 7 < 1 by omega]
    · by_cases h2 : i < 24
      · simp [h, h1, h2, show ¬ i - 7 < 1 by omega, show i - 7 - 1 = i - 8 by omega,
          show i - 8 < 16 by omega]
      · by_cases h3 : i < 28
        · simp [h, h1, h2, h3, show ¬ i - 7 < 1 by omega, show ¬ i - 7 - 1 < 16 by omega,
            show i - 7 - 1 - 16 < 4 by omega]
        · simp [h, h1, h2, h3, show ¬ i - 7 < 1 by omega, show ¬ i - 7 - 1 < 16 by omega,
            show ¬ i - 7 - 1 - 16 < 4 by omega, show i - 7 - 1 - 16 - 4 = i - 28 by omega]

@[simp] theorem lineOfBit_toBit (l : Line) : lineOfBit l.toBit = l := by cases l <;> rfl

@[simp] theorem ackOfBit_toBit (a : Ack) : ackOfBit a.toBit = a := by cases a <;> rfl

@[simp] theorem toBit_lineOfBit (b : BitVec 1) : (lineOfBit b).toBit = b := by revert b; decide

@[simp] theorem toBit_ackOfBit (b : BitVec 1) : (ackOfBit b).toBit = b := by revert b; decide

end Sys2Proof
end

