-- ==== Sys2Proof/Laws/PerInstr.lean ====
section
/-! SUPPORT. Statements over every instruction, one lemma per constructor. `EncodesRow`: the word a command encodes to
carries the match bits of the command's own row of the opcode map under that row's mask (30_encoding.md R90). -/

namespace Sys2Proof.Laws.EncodesRow

/-- Some row of the opcode map has the command's mnemonic and matches its word. -/
def Statement (i : Instr) : Prop :=
  ∃ r ∈ opcodeTable, r.mnemonic = i.mnemonic ∧ r.encodes (encode i) = true

/-- A word whose bits under the mask are the row's. -/
theorem encodes_of_bits {r : OpcodeRow} {w : Word}
    (h : ∀ k < 32, (w.getLsbD k && r.mask.getLsbD k) = r.bits.getLsbD k) : r.encodes w = true := by
  have : w &&& r.mask = r.bits := word_ext fun k hk => by rw [BitVec.getLsbD_and]; exact h k hk
  simp [OpcodeRow.encodes, this]

theorem driveLow (l : Line) : Statement (.driveLow l) := by unfold Statement; cases l <;> decide
theorem release (l : Line) : Statement (.release l) := by unfold Statement; cases l <;> decide
theorem sample (l : Line) : Statement (.sample l) := by unfold Statement; cases l <;> decide
theorem halfDelay : Statement .halfDelay := by unfold Statement; decide
theorem start : Statement .start := by unfold Statement; decide
theorem rstart : Statement .rstart := by unfold Statement; decide
theorem stop : Statement .stop := by unfold Statement; decide
theorem readByte (a : Ack) : Statement (.readByte a) := by unfold Statement; cases a <;> decide

theorem setDelay (us : Half) : Statement (.setDelay us) := by
  refine ⟨⟨"SET_DELAY", 0x50000000#32, 0xFF0000FF#32⟩, by decide, rfl, encodes_of_bits fun k hk => ?_⟩
  simp only [encode, formatI_getLsbD]
  interval_cases k <;> simp

theorem writeByte (d : Byte) : Statement (.writeByte d) := by
  refine ⟨⟨"WRITE_BYTE", 0x90000000#32, 0xFFFFFF00#32⟩, by decide, rfl, encodes_of_bits fun k hk => ?_⟩
  simp only [encode, formatB_getLsbD]
  interval_cases k <;> simp

theorem writeMsg (addr : Addr7) (len : Half) : Statement (.writeMsg addr len) := by
  refine ⟨⟨"WRITE_MSG", 0xB0000000#32, 0xFF000080#32⟩, by decide, rfl, encodes_of_bits fun k hk => ?_⟩
  simp only [encode, formatM_getLsbD]
  interval_cases k <;> simp

theorem readMsg (addr : Addr7) (len : Half) : Statement (.readMsg addr len) := by
  refine ⟨⟨"READ_MSG", 0xC0000000#32, 0xFF000080#32⟩, by decide, rfl, encodes_of_bits fun k hk => ?_⟩
  simp only [encode, formatM_getLsbD]
  interval_cases k <;> simp

end Sys2Proof.Laws.EncodesRow
end

