-- ==== Sys2Proof/Laws/Script.lean ====
section
/-! SUPPORT. The line operations where the environment's next moves are known (log entry 3): what each leaves of the script,
which lines are then held, and what a sample of a released line returns (10_state.md R22, R28). -/

namespace Sys2Proof.Machine

/-- The environment holds `x` now and next follows the script `p`, one list of changes for each gap. -/
def Bus.Follows (b : Bus) (x : PerLine Bool) (p : List (List (PerLine Bool))) : Prop :=
  b.ext = x ∧ p <+: b.plan

/-- A premise in terms of `List.take` names a script followed. -/
theorem Bus.follows_of_take {b : Bus} {x : PerLine Bool} {p : List (List (PerLine Bool))} (hx : b.ext = x)
    (hp : b.plan.take p.length = p) : b.Follows x p :=
  ⟨hx, List.prefix_iff_eq_take.2 hp.symm⟩

theorem Bus.Follows.gap {b : Bus} {x : PerLine Bool} {m : List (PerLine Bool)} {p : List (List (PerLine Bool))}
    (h : b.Follows x (m :: p)) : b.gap.Follows (lastHold x m) p := by
  obtain ⟨rfl, rest, hp⟩ := h
  exact ⟨by simp [Bus.gap, Bus.moves, ← hp], rest, by simp [Bus.gap, ← hp]⟩

theorem driveLow_follows {s : State} {x : PerLine Bool} {m n : List (PerLine Bool)} {p : List (List (PerLine Bool))}
    (l : Line) (h : s.bus.Follows x (m :: n :: p)) :
    (driveLow l s).bus.Follows (lastHold (lastHold x m) n) p :=
  have h1 : (s.bus.gpioWrite l .dir true).Follows (lastHold x m) (n :: p) := h.gap
  h1.gap

theorem release_follows {s : State} {x : PerLine Bool} {m n : List (PerLine Bool)} {p : List (List (PerLine Bool))}
    (l : Line) (h : s.bus.Follows x (m :: n :: p)) :
    (release l s).bus.Follows (lastHold (lastHold x m) n) p :=
  have h1 : (s.bus.gpioWrite l .dir false).Follows (lastHold x m) (n :: p) := h.gap
  h1.gap

theorem setSda_follows {s : State} {x : PerLine Bool} {m n : List (PerLine Bool)} {p : List (List (PerLine Bool))}
    (b : Bool) (h : s.bus.Follows x (m :: n :: p)) :
    (setSda b s).bus.Follows (lastHold (lastHold x m) n) p := by
  cases b
  · exact driveLow_follows .sda h
  · exact release_follows .sda h

theorem halfDelay_follows {s : State} {x : PerLine Bool} {m : List (PerLine Bool)} {p : List (List (PerLine Bool))}
    (h : s.bus.Follows x (m :: p)) : (halfDelay s).bus.Follows (lastHold x m) p := h.gap

theorem sample_follows {s : State} {x : PerLine Bool} {m : List (PerLine Bool)} {p : List (List (PerLine Bool))}
    (l : Line) (h : s.bus.Follows x (m :: p)) : (sample l s).2.bus.Follows (lastHold x m) p := h.gap

/-- A sample of a released line returns 1 unless the environment then holds it (R28, R114). -/
theorem sample_released {s : State} {x : PerLine Bool} {m : List (PerLine Bool)} {p : List (List (PerLine Bool))}
    {l : Line} (h : s.bus.Follows x (m :: p)) (hl : (s.bus.latch.get l).dir = false) :
    (sample l s).1 = !(lastHold x m).get l := by
  show levelAt s.bus.latch s.bus.gap.ext s.bus.gap.instant l = _
  rw [h.gap.1, levelAt_wiredAnd (fun hc => by simp [hc.1] at hl), wiredAnd]
  simp [hl]

/-- SCL is not held where the wait comes: one sample, no timeout (R140). -/
theorem raiseScl_follows {s : State} {x : PerLine Bool} {m n k j : List (PerLine Bool)}
    {p : List (List (PerLine Bool))} (h : s.bus.Follows x (m :: n :: k :: j :: p))
    (hs : (lastHold (lastHold (lastHold x m) n) k).scl = false) (hp : 0 < s.cfg.stretchPolls) :
    (raiseScl s).1 = false ∧
      (raiseScl s).2.bus.Follows (lastHold (lastHold (lastHold (lastHold x m) n) k) j) p := by
  have h1 := release_follows .scl h
  obtain ⟨q, hq⟩ := Nat.exists_eq_succ_of_ne_zero (Nat.pos_iff_ne_zero.1 hp)
  have hv : (sample .scl (release .scl s)).1 = true := by
    rw [sample_released h1 (by simp [release, PerLine.set])]; simp [hs]
  have hw : waitSclHigh (release .scl s) = (false, (sample .scl (release .scl s)).2) := by
    rw [waitSclHigh, show (release .scl s).cfg = s.cfg from rfl, hq, waitSclHighFor, if_pos hv]
  unfold raiseScl
  rw [hw]
  exact ⟨rfl, halfDelay_follows (sample_follows .scl h1)⟩

/-- A gap with no change, ten times: a written bit with no stretching leaves the holds as they are (R141). -/
theorem sendBit_quiet {s : State} {x : PerLine Bool} {p : List (List (PerLine Bool))} (b : Bool)
    (h : s.bus.Follows x (List.replicate 10 [] ++ p)) (hx : x.scl = false) (hp : 0 < s.cfg.stretchPolls) :
    (sendBit b s).1 = false ∧ (sendBit b s).2.bus.Follows x p :=
  raiseScl_follows (halfDelay_follows (setSda_follows b (halfDelay_follows (driveLow_follows .scl h)))) hx
    (by cases b <;> exact hp)

theorem sendBits_quiet {x : PerLine Bool} {p : List (List (PerLine Bool))} (d : Byte) (n : Nat) (t : Bool)
    {s : State} (h : s.bus.Follows x (List.replicate (10 * n) [] ++ p)) (hx : x.scl = false)
    (hp : 0 < s.cfg.stretchPolls) :
    (sendBits d n t s).1 = t ∧ (sendBits d n t s).2.bus.Follows x p := by
  induction n generalizing t s with
  | zero => exact ⟨rfl, h⟩
  | succ n ih =>
    rw [show 10 * (n + 1) = 10 + 10 * n by omega, List.replicate_add, List.append_assoc] at h
    obtain ⟨h1, h2⟩ := sendBit_quiet (d.getLsbD n) h hx hp
    obtain ⟨_, _, hr⟩ := sendBit_runs (d.getLsbD n) s
    rw [sendBits, h1, Bool.or_false]
    exact ih t h2 (by rw [hr.cfg]; exact hp)

/-- A written byte whose bits are undisturbed and whose slave makes the changes `m` just after event 84: no timeout, and
the acknowledgment level is 0 exactly if SDA is held then (R141). -/
theorem writeByteCore_follows {s : State} {x : PerLine Bool} {m : List (PerLine Bool)}
    {p : List (List (PerLine Bool))} (d : Byte)
    (h : s.bus.Follows x (List.replicate 84 [] ++ [m] ++ List.replicate 7 [] ++ p)) (hx : x.scl = false)
    (hm : (lastHold x m).scl = false) (hp : 0 < s.cfg.stretchPolls) :
    (writeByteCore d s).timedOut = false ∧ (writeByteCore d s).ack = !(lastHold x m).sda := by
  have h0 : s.bus.Follows x (List.replicate (10 * 8) [] ++
      (List.replicate 4 [] ++ [m] ++ List.replicate 7 [] ++ p)) := h
  obtain ⟨h1, h2⟩ := sendBits_quiet d 8 false h0 hx hp
  obtain ⟨_, _, _, _, hr⟩ := sendBits_runs d 8 false s
  have h3 := halfDelay_follows (release_follows .sda (driveLow_follows .scl h2))
  obtain ⟨h4, h5⟩ := raiseScl_follows h3 hm (by exact hr.cfg ▸ hp)
  refine ⟨?_, ?_⟩
  · show ((sendBits d 8 false s).1 || _) = false
    rw [h1]; exact h4
  · show (sample .sda _).1 = _
    rw [sample_released h5 (by simp [release, driveLow, halfDelay, PerLine.set])]
    rfl

/-- A read bit before which the slave makes the changes `m`, just after SCL fell: no timeout, and SDA sampled as it is
held then (R142). -/
theorem recvBits_step {s : State} {x : PerLine Bool} {m : List (PerLine Bool)} {p : List (List (PerLine Bool))}
    (n : Nat) (v : Byte) (h : s.bus.Follows x ([[], [], m] ++ List.replicate 5 [] ++ p))
    (hm : (lastHold x m).scl = false) (hl : s.bus.latch.sda.dir = false) (hp : 0 < s.cfg.stretchPolls) :
    ∃ u, recvBits (n + 1) v false s = recvBits n (setBit v n (!(lastHold x m).sda)) false u ∧
      u.bus.Follows (lastHold x m) p ∧ u.bus.latch.sda.dir = false ∧ u.cfg = s.cfg := by
  have h1 := halfDelay_follows (driveLow_follows .scl h)
  obtain ⟨h2, h3⟩ := raiseScl_follows h1 hm hp
  obtain ⟨_, _, hr⟩ := raiseScl_runs (halfDelay (driveLow .scl s))
  have hd : (raiseScl (halfDelay (driveLow .scl s))).2.bus.latch.sda.dir = false := by
    simp [driveLow, halfDelay, PerLine.set, hl]
  refine ⟨(sample .sda (raiseScl (halfDelay (driveLow .scl s))).2).2, ?_, (h3.gap : Bus.Follows _ _ p), hd, hr.cfg⟩
  rw [recvBits, h2, sample_released (l := .sda) h3 hd]
  rfl

/-- `SEND(v)`'s bits `n-1` down to 0, and then the changes `m` just after SCL falls for the ninth clock (R142). -/
theorem recvBits_sent {v : Byte} {p : List (List (PerLine Bool))} (n : Nat) (w : Byte) {x : PerLine Bool} {s : State}
    (h : s.bus.Follows x ([[], []] ++ sendBitsScript v n ++ p))
    (hw : ∀ i, n ≤ i → w.getLsbD i = v.getLsbD i) (hn : n ≤ 8)
    (hx : x.scl = false) (hl : s.bus.latch.sda.dir = false) (hp : 0 < s.cfg.stretchPolls) :
    (recvBits n w false s).value = v ∧ (recvBits n w false s).timedOut = false ∧
      ∃ y, y.scl = false ∧ (recvBits n w false s).state.bus.Follows y ([[], []] ++ p) := by
  induction n generalizing w x s with
  | zero => exact ⟨BitVec.eq_of_getLsbD_eq fun i _ => hw i (Nat.zero_le i), rfl, x, hx, h⟩
  | succ n ih =>
    have h' : s.bus.Follows x ([[], [], [{ sda := !v.getLsbD n, scl := false }]] ++ List.replicate 5 [] ++
        ([[], []] ++ sendBitsScript v n ++ p)) := by
      simpa [sendBitsScript, List.replicate] using h
    obtain ⟨u, h1, h2, h3, h4⟩ := recvBits_step n w h' rfl hl hp
    rw [h1]
    refine ih _ h2 (fun i hi => ?_) (by omega) rfl h3 (h4 ▸ hp)
    rw [setBit_getLsbD (by omega)]
    by_cases hin : i = n
    · simp [hin, lastHold]
    · rw [if_neg hin]; exact hw i (by omega)

/-- The environment's holds never change over eight read bits: each samples the same level (R142). -/
theorem recvBits_quiet {p : List (List (PerLine Bool))} (n : Nat) (w : Byte) {x : PerLine Bool} {s : State}
    (h : s.bus.Follows x (List.replicate (8 * n) [] ++ p))
    (hw : ∀ i, n ≤ i → i < 8 → w.getLsbD i = !x.sda) (hn : n ≤ 8)
    (hx : x.scl = false) (hl : s.bus.latch.sda.dir = false) (hp : 0 < s.cfg.stretchPolls) :
    (∀ i < 8, (recvBits n w false s).value.getLsbD i = !x.sda) ∧ (recvBits n w false s).timedOut = false ∧
      (recvBits n w false s).state.bus.Follows x p := by
  induction n generalizing w s with
  | zero => exact ⟨fun i hi => hw i (Nat.zero_le i) hi, rfl, h⟩
  | succ n ih =>
    have h' : s.bus.Follows x ([[], [], []] ++ List.replicate 5 [] ++ (List.replicate (8 * n) [] ++ p)) := by
      rw [show 8 * (n + 1) = 8 + 8 * n by omega, List.replicate_add, List.append_assoc] at h
      exact h
    obtain ⟨u, h1, h2, h3, h4⟩ := recvBits_step n w h' hx hl hp
    rw [h1]
    refine ih _ h2 (fun i hi hi8 => ?_) (by omega) h3 (h4 ▸ hp)
    rw [setBit_getLsbD (by omega)]
    by_cases hin : i = n
    · simp [hin, lastHold]
    · rw [if_neg hin]; exact hw i (by omega) hi8

/-- The ninth clock of a read byte with SCL free: no timeout (R142). -/
theorem ninth_follows {s : State} {y : PerLine Bool} {m : List (PerLine Bool)} {p : List (List (PerLine Bool))}
    (b : Bool) (h : s.bus.Follows y ([[], [], m] ++ List.replicate 8 [] ++ p)) (hm : (lastHold y m).scl = false)
    (hp : 0 < s.cfg.stretchPolls) : (raiseScl (halfDelay (setSda b (driveLow .scl s)))).1 = false :=
  (raiseScl_follows (halfDelay_follows (setSda_follows b (driveLow_follows .scl h))) hm
    (by cases b <;> exact hp)).1

end Sys2Proof.Machine
end

