-- ==== Sys2Proof/Tests/Slice0.lean ====
section
/-! SUPPORT. Small tests of the model. Every expected value is written out from the spec (95_test_vectors.md, or the rule
named); the theorems `test_witness_…` show concrete states that meet the hypotheses of a statement. -/

namespace Sys2Proof.Machine.Tests

open Sys2Proof Sys2Proof.Machine

/-! ### Small states -/

/-- No line held. -/
def none2 : PerLine Bool := { sda := false, scl := false }
/-- SDA held low. -/
def sdaHeld : PerLine Bool := { sda := true, scl := false }
/-- SCL held low. -/
def sclHeld : PerLine Bool := { sda := false, scl := true }

/-- Both lines released with pull-up (R27). -/
def releasedLatch : PerLine Latch := { sda := { dir := false, out := true }, scl := { dir := false, out := true } }
/-- Both lines driven low, as StartSeq leaves them (R180). -/
def lowLatch : PerLine Latch := { sda := { dir := true, out := false }, scl := { dir := true, out := false } }

/-- `QUIET` for `n` gaps. -/
def quiet (n : Nat) : List (List (PerLine Bool)) := List.replicate n []

/-- An environment of `n` gaps whose move `(e, h)` is made just after event `e`. -/
def script (n : Nat) (moves : List (Nat × PerLine Bool)) : List (List (PerLine Bool)) :=
  (List.range n).map fun e => (moves.filter fun m => m.1 == e).map Prod.snd

/-- `ACK` for the written byte whose first event is number `e + 1`. -/
def ackMoves (e : Nat) : List (Nat × PerLine Bool) := [(e + 84, sdaHeld), (e + 92, none2)]

/-- `SEND(v)` for the read byte whose first event is number `e + 1`. -/
def sendMoves (e : Nat) (v : Byte) : List (Nat × PerLine Bool) :=
  ([7, 6, 5, 4, 3, 2, 1, 0].map fun i => (e + 8 * (7 - i) + 4, { sda := !v.getLsbD i, scl := false })) ++
    [(e + 68, none2)]

/-- A state with these latches and this environment, no event recorded yet, `EXT` = 0. -/
def mk (c : Params) (ph : Phase) (k : PerLine Latch) (plan : List (List (PerLine Bool))) : State :=
  { State.construct c { latch := k, ext := none2, contention := false, trace := [], plan := plan, instant := 0 } with
    ph := ph }

/-- As just after reset, in IDLE. -/
def idleState (plan : List (List (PerLine Bool))) : State := mk Config.defaults .idle releasedLatch plan
/-- As just after `START`, in ACTIVE. -/
def activeState (plan : List (List (PerLine Bool))) : State := mk Config.defaults .active lowLatch plan

/-- The same with line holds from the start. -/
def held (h : PerLine Bool) (s : State) : State := { s with bus := { s.bus with ext := h } }

/-- Default parameters with another `STRETCH_POLLS`. -/
def polls (n : Nat) : Params := { Config.defaults with stretchPolls := n }

/-- Does command word `w` answer a next state with property `p`? -/
def gives (w : Word) (s : State) (p : State → Bool) : Bool :=
  match command w s with
  | .next t => p t
  | .fault _ => false
  | .refused _ => false

/-- Does the step answer a next state with property `p`? -/
def stepGives (s : State) (p : State → Bool) : Bool :=
  match step s with
  | .next t => p t
  | .fault _ => false
  | .refused _ => false

/-- The wire symbols of the whole trace of `s`, from a reader standing at `r`. -/
def wireOf (r : Reader) (s : State) : List Symbol := wireSymbols r s.bus.trace

/-! ### WellFormed smoke -/

theorem test_wf_defaults : Config.defaults.ok = true := by decide
theorem test_wf_no_sda : ({ Config.defaults with sdaBind := none } : Params).ok = false := by decide
theorem test_wf_no_scl : ({ Config.defaults with sclBind := none } : Params).ok = false := by decide
theorem test_wf_no_pins : ({ Config.defaults with sdaBind := none, sclBind := none } : Params).ok = false := by decide
/-- R25: the two pins share their direction bit. -/
theorem test_wf_same_dir_bit : ({ Config.defaults with
    sdaBind := some { dirReg := 3, outReg := 4, inReg := 5, bit := 2 },
    sclBind := some { dirReg := 3, outReg := 6, inReg := 7, bit := 2 } } : Params).ok = false := by decide
/-- R25: the two pins share their output bit. -/
theorem test_wf_same_out_bit : ({ Config.defaults with
    sdaBind := some { dirReg := 3, outReg := 4, inReg := 5, bit := 2 },
    sclBind := some { dirReg := 8, outReg := 4, inReg := 7, bit := 2 } } : Params).ok = false := by decide
/-- D28: a shared input register and bit is no reason to refuse. -/
theorem test_wf_shared_input : ({ Config.defaults with
    sdaBind := some { dirReg := 3, outReg := 4, inReg := 5, bit := 2 },
    sclBind := some { dirReg := 8, outReg := 9, inReg := 5, bit := 2 } } : Params).ok = true := by decide
theorem test_wf_no_polls : (polls 0).ok = false := by decide
theorem test_wf_buffer_sizes :
    ({ Config.defaults with bufSize := 0 } : Params).ok = false ∧
    ({ Config.defaults with bufSize := 1 } : Params).ok = true ∧
    ({ Config.defaults with bufSize := 65536 } : Params).ok = true ∧
    ({ Config.defaults with bufSize := 65537 } : Params).ok = false := by decide
/-- X19, X20: a length of 17 or 16 in a buffer of 16 bytes. -/
theorem test_wf_length :
    (Instr.writeMsg 0x10#7 17#16).fits 16 = false ∧ (Instr.readMsg 0x10#7 16#16).fits 16 = true := by decide

/-! ### Decoding, each word written from its format (R82 to R88) -/

theorem test_decode_driveLow :
    decode 0b0001_0000_0000_0000_0000_0000_0000_0000#32 = .command (.driveLow .sda) ∧
    decode 0b0001_0000_0000_0000_0000_0000_0000_0001#32 = .command (.driveLow .scl) := by decide
theorem test_decode_release :
    decode 0b0010_0000_0000_0000_0000_0000_0000_0000#32 = .command (.release .sda) ∧
    decode 0b0010_0000_0000_0000_0000_0000_0000_0001#32 = .command (.release .scl) := by decide
theorem test_decode_sample :
    decode 0b0011_0000_0000_0000_0000_0000_0000_0000#32 = .command (.sample .sda) ∧
    decode 0b0011_0000_0000_0000_0000_0000_0000_0001#32 = .command (.sample .scl) := by decide
theorem test_decode_halfDelay :
    decode 0b0100_0000_0000_0000_0000_0000_0000_0000#32 = .command .halfDelay := by decide
/-- IMM16 in bits 23:8, most significant bit first: 0x8001. -/
theorem test_decode_setDelay :
    decode 0b0101_0000_1000_0000_0000_0001_0000_0000#32 = .command (.setDelay 0x8001#16) := by decide
theorem test_decode_start : decode 0b0110_0000_0000_0000_0000_0000_0000_0000#32 = .command .start := by decide
theorem test_decode_rstart : decode 0b0111_0000_0000_0000_0000_0000_0000_0000#32 = .command .rstart := by decide
theorem test_decode_stop : decode 0b1000_0000_0000_0000_0000_0000_0000_0000#32 = .command .stop := by decide
theorem test_decode_writeByte :
    decode 0b1001_0000_0000_0000_0000_0000_1101_0001#32 = .command (.writeByte 0xD1#8) := by decide
theorem test_decode_readByte :
    decode 0b1010_0000_0000_0000_0000_0000_0000_0000#32 = .command (.readByte .ack) ∧
    decode 0b1010_0000_0000_0000_0000_0000_0000_0001#32 = .command (.readByte .nack) := by decide
/-- LEN in bits 23:8, ADDR7 in bits 6:0. -/
theorem test_decode_writeMsg :
    decode 0b1011_0000_1000_0000_0000_0011_0100_0001#32 = .command (.writeMsg 0x41#7 0x8003#16) := by decide
theorem test_decode_readMsg :
    decode 0b1100_0000_1000_0000_0000_0011_0100_0001#32 = .command (.readMsg 0x41#7 0x8003#16) := by decide
/-- X1 to X4. -/
theorem test_decode_reserved_opcodes :
    decode 0x00000000#32 = .illegal .reservedOpcode ∧ decode 0xD0000000#32 = .illegal .reservedOpcode ∧
    decode 0xEFFFFFFF#32 ≠ .command .start ∧ decode 0xE0000000#32 = .illegal .reservedOpcode ∧
    decode 0xF0000000#32 = .illegal .reservedOpcode := by decide
/-- X5 to X11. -/
theorem test_decode_reserved_bits : [0x61000000#32, 0x40000001#32, 0x10000002#32, 0x50000A01#32,
    0x900001D0#32, 0xA0000002#32, 0xB00002E8#32].all (fun w => decode w == .illegal .reservedBits) = true := by decide
theorem test_decodeTableWord :
    decodeTableWord 32 0xC0000368 = some (.readMsg 0x68#7 3#16) ∧ decodeTableWord 32 0xD0000000 = none := by decide

/-! ### Address byte and assembler -/

/-- L1-1. -/
theorem test_address_bytes :
    addressByte 0x68#7 .write = 0xD0#8 ∧ addressByte 0x68#7 .read = 0xD1#8 ∧
    addressByte 0x00#7 .read = 0x01#8 ∧ addressByte 0x50#7 .write = 0xA0#8 ∧
    addressByte 0x7F#7 .write = 0xFE#8 ∧ addressByte 0x7F#7 .read = 0xFF#8 := by decide
/-- The lines of P1, P2 and P6. -/
theorem test_assemble_programs :
    assemble "      WRITE_MSG 0x68, 2        ; 0xB0000268" = .word 0xB0000268#32 ∧
    assemble "      WRITE_BYTE 0x75          ; 0x90000075   register index" = .word 0x90000075#32 ∧
    assemble "READ_BYTE NACK" = .word 0xA0000001#32 ∧ assemble "SET_DELAY 10" = .word 0x50000A00#32 ∧
    assemble "SAMPLE SDA" = .word 0x30000000#32 ∧ assemble "  ; nothing" = .blank := by decide +kernel
/-- P3, and R98: an operand out of range is an error. -/
theorem test_assemble_probe_and_errors :
    assemble "PROBE 0x50               ; 0xB0000050" = .word 0xB0000050#32 ∧
    assemble "SET_DELAY 65536" = .error ∧ assemble "SET_DELAY 65535" = .word 0x50FFFF00#32 ∧
    assemble "WRITE_BYTE 256" = .error ∧ assemble "READ_MSG 128, 0" = .error ∧
    assemble "START SDA" = .error ∧ assemble "DRIVE_LOW" = .error := by decide +kernel

/-! ### Line and delay commands -/

/-- V1. -/
theorem test_driveLow_V1 : gives 0x10000000#32 (idleState (quiet 2)) (fun t =>
    t.history == [.write .sda .dir true, .write .sda .out false] && t.bus.level .sda == false &&
    t.status == 0#32 && t.bus.contention == false) = true := by decide +kernel
/-- V6: driving a held line passes through contention. -/
theorem test_driveLow_V6 : gives 0x10000001#32 (held sclHeld (idleState (quiet 2))) (fun t =>
    t.bus.contention && t.bus.latch.scl == { dir := true, out := false } && t.bus.level .scl == false) = true := by
  decide +kernel
/-- V4: the level of SDA returns to 1. -/
theorem test_release_V4 : gives 0x20000000#32 (mk Config.defaults .idle lowLatch (quiet 2)) (fun t =>
    t.history == [.write .sda .dir false, .write .sda .out true] && t.bus.level .sda && t.status == 0#32) = true := by
  decide +kernel
/-- V7: a release of a held line leaves level 0 and does not wait. -/
theorem test_release_V7 : gives 0x20000001#32 (held sclHeld (idleState (quiet 2))) (fun t =>
    t.history.length == 2 && t.bus.level .scl == false && t.status == 0#32) = true := by decide +kernel
/-- V5. -/
theorem test_sample_V5 : gives 0x30000001#32 (held sclHeld (idleState (quiet 1))) (fun t =>
    t.history == [.read .scl false] && t.rxdata == 0#8) = true := by decide +kernel
/-- L1-8: an idle line reads 1, in bit 0 of `RXDATA`. -/
theorem test_sample_idle : gives 0x30000000#32 (idleState (quiet 1)) (fun t =>
    t.history == [.read .sda true] && readReg t .rxdata == 1#32) = true := by decide +kernel
/-- V9. -/
theorem test_halfDelay_V9 : gives 0x40000000#32 (idleState (quiet 1)) (fun t =>
    t.history == [.delay 5#16] && t.status == 0#32) = true := by decide +kernel
/-- V11. -/
theorem test_halfDelay_V11 : gives 0x40000000#32 { idleState (quiet 1) with delayUs := 0#16 } (fun t =>
    t.history == [.delay 0#16]) = true := by decide +kernel
/-- V12. -/
theorem test_setDelay_V12 : gives 0x50FFFF00#32 (idleState []) (fun t =>
    readReg t .delay == 0x0000FFFF#32 && t.history == []) = true := by decide +kernel
/-- V13. -/
theorem test_setDelay_V13 : gives 0x50000A00#32 (activeState []) (fun t =>
    readReg t .delay == 0x0000000A#32 && t.status == 0x8#32) = true := by decide +kernel

/-! ### Illegal words and commands not legal now -/

/-- X1, X2, X4 to X8, X11 to X15: `STATUS` 0x3 in IDLE, no event, `DELAY` stays, `TO` cleared. -/
theorem test_illegal_in_idle : [0x00000000#32, 0xD0000000#32, 0xFFFFFFFF#32, 0x61000000#32, 0x40000001#32,
    0x10000002#32, 0x50000A01#32, 0xB00002E8#32, 0x900000D0#32, 0xA0000001#32, 0x80000000#32, 0x70000000#32].all
    (fun w => gives w { idleState [] with timedOut := true } (fun t => t.status == 0x3#32 && t.history == [] &&
      t.delayUs == 5#16)) = true := by decide +kernel
/-- X3, X9, X10, X16 to X18: `STATUS` 0xB in ACTIVE. -/
theorem test_illegal_in_active : [0xEFFFFFFF#32, 0x900001D0#32, 0xA0000002#32, 0x60000000#32, 0xB0000268#32,
    0xC0000268#32].all (fun w => gives w (activeState []) (fun t => t.status == 0xB#32 && t.history == [])) = true := by
  decide +kernel
/-- X19, X20: the length against a buffer of 16 bytes. -/
theorem test_illegal_length :
    gives 0xB0001110#32 (mk { Config.defaults with bufSize := 16 } .idle releasedLatch (quiet 107))
      (fun t => t.status == 0x3#32) = true ∧
    gives 0xC0001010#32 (mk { Config.defaults with bufSize := 16 } .idle releasedLatch (quiet 107))
      (fun t => t.status == 0x1#32) = true := by decide +kernel

/-! ### Conditions -/

/-- S1. -/
theorem test_start_S1 : gives 0x60000000#32 (idleState (quiet 5)) (fun t =>
    t.history == [.write .sda .dir true, .write .sda .out false, .delay 5#16, .write .scl .dir true,
      .write .scl .out false] && t.status == 0x8#32 && wireOf Reader.idle t == [.start]) = true := by decide +kernel
/-- S2: the twelve events and the symbol Sr. -/
theorem test_rstart_S2 : gives 0x70000000#32 (activeState (quiet 12)) (fun t =>
    t.history == [.write .sda .dir false, .write .sda .out true, .delay 5#16, .write .scl .dir false,
      .write .scl .out true, .read .scl true, .delay 5#16, .write .sda .dir true, .write .sda .out false,
      .delay 5#16, .write .scl .dir true, .write .scl .out false] && t.status == 0x8#32 &&
    wireOf Reader.open t == [.rstart]) = true := by decide +kernel
/-- A repeated start whose wait times out: `RC` = `TIMEOUT`, `TO` = 1, `PH` stays (R186, W3). -/
theorem test_rstart_timeout : gives 0x70000000#32
    (held sclHeld (mk (polls 1) .active lowLatch (script 12 [(6, none2)])))
    (fun t => t.status == 0xE#32 && t.history.length == 12) = true := by decide +kernel
/-- S5. -/
theorem test_stop_S5 : gives 0x80000000#32
    (mk (polls 2) .active lowLatch (script 11 [(0, sclHeld), (7, none2)])) (fun t =>
    t.history == [.write .sda .dir true, .write .sda .out false, .delay 5#16, .write .scl .dir false,
      .write .scl .out true, .read .scl false, .read .scl false, .delay 5#16, .write .sda .dir false,
      .write .sda .out true, .delay 5#16] && t.status == 0x6#32 && wireOf Reader.open t == [.stop]) = true := by
  decide +kernel
/-- S7, with S6's note: no P on the wire, the latches released, SCL still low. -/
theorem test_stop_S7 : gives 0x80000000#32
    (mk { polls 2 with timeoutIsError := false } .active lowLatch (script 11 [(0, sclHeld)])) (fun t =>
    t.history.length == 11 && t.status == 0x4#32 && wireOf Reader.open t == [] && t.bus.latch == releasedLatch &&
    t.bus.level .scl == false) = true := by decide +kernel

/-! ### Bytes -/

/-- B4: a timeout on bit 7 wins over the ACK, and the byte is still sent whole. -/
theorem test_writeByte_B4 : gives 0x900000D0#32
    (mk (polls 2) .active lowLatch (script 93 [(2, sclHeld), (10, none2), (85, sdaHeld)])) (fun t =>
    t.history.length == 93 && t.rxdata == 0#8 && t.status == 0xE#32 &&
    wireOf Reader.open t == byteSymbols 0xD0#8 ++ [.ack]) = true := by decide +kernel
/-- B7: SCL held throughout, nine timeouts of two samples, contention. -/
theorem test_writeByte_B7 : gives 0x90000000#32
    (mk (polls 2) .active lowLatch (script 101 [(2, sclHeld)])) (fun t =>
    t.history.length == 101 && t.rxdata == 1#8 && t.status == 0xE#32 && t.bus.contention &&
    t.history[98]? == some (.read .sda true)) = true := by decide +kernel
/-- B9. -/
theorem test_readByte_B9 : gives 0xA0000001#32 (activeState (script 77 (sendMoves 0 0x68#8))) (fun t =>
    t.history.length == 77 && t.rxdata == 0x68#8 && t.status == 0x8#32 &&
    t.bus.latch.sda == { dir := false, out := true } &&
    wireOf Reader.open t == byteSymbols 0x68#8 ++ [.nack]) = true := by decide +kernel
/-- B12: the ninth clock's wait times out; a read byte never gives `NACK`. -/
theorem test_readByte_B12 : gives 0xA0000001#32
    (mk (polls 3) .active lowLatch (script 79 (sendMoves 0 0x5A#8 ++ [(68, sclHeld), (76, none2)]))) (fun t =>
    t.history.length == 79 && t.rxdata == 0x5A#8 && t.status == 0xE#32) = true := by decide +kernel

/-! ### Messages -/

/-- `BUF[0]` = 0x00, `BUF[1]` = 0x42. -/
def twoBytes : List Host.Cell := [(0, 0x00#8), (1, 0x42#8)]

/-- L1-2: S D0 A 00 A 42 A P. -/
theorem test_writeMsg_L1_2 : gives 0xB0000268#32
    { idleState (script 291 (ackMoves 5 ++ ackMoves 97 ++ ackMoves 189)) with buf := twoBytes } (fun t =>
    t.history.length == 291 && t.history.countP Event.isDelay == 82 && t.status == 0#32 && t.rxdata == 0#8 &&
    t.buf == twoBytes && t.bus.latch == releasedLatch &&
    wireOf Reader.idle t == [.start] ++ byteSymbols 0xD0#8 ++ [.ack] ++ byteSymbols 0x00#8 ++ [.ack] ++
      byteSymbols 0x42#8 ++ [.ack, .stop]) = true := by decide +kernel
/-- M7: a timeout in the address byte ends the message although the slave acknowledged; the payload is not sent. -/
theorem test_writeMsg_M7 : gives 0xB0000168#32
    { mk (polls 4) .idle releasedLatch (script 110 [(7, sclHeld), (17, none2), (92, sdaHeld), (100, none2)]) with
      buf := [(0, 0x01#8)] } (fun t =>
    t.history.length == 110 && t.status == 0x6#32 && t.history[97]? == some (.read .sda false)) = true := by
  decide +kernel
/-- M9: S D1 A 12 A 34 N P. -/
theorem test_readMsg_M9 : gives 0xC0000268#32
    (idleState (script 261 (ackMoves 5 ++ sendMoves 97 0x12#8 ++ sendMoves 174 0x34#8))) (fun t =>
    t.history.length == 261 && t.status == 0#32 && t.buf == [(0, 0x12#8), (1, 0x34#8)] &&
    wireOf Reader.idle t == [.start] ++ byteSymbols 0xD1#8 ++ [.ack] ++ byteSymbols 0x12#8 ++ [.ack] ++
      byteSymbols 0x34#8 ++ [.nack, .stop]) = true := by decide +kernel
/-- M13: a timeout in payload byte 1 does not end the loop; `RC` is `TIMEOUT`. -/
theorem test_readMsg_M13 : gives 0xC0000268#32
    (mk (polls 3) .idle releasedLatch (script 263 (ackMoves 5 ++
      [(101, sclHeld), (101, { sda := true, scl := true }), (107, sdaHeld)] ++
      (sendMoves 99 0x12#8).drop 1 ++ sendMoves 176 0x34#8))) (fun t =>
    t.history.length == 263 && t.status == 0x6#32 && t.buf == [(0, 0x12#8), (1, 0x34#8)]) = true := by
  decide +kernel

/-! ### The host's side -/

/-- L1-10: reads after reset. -/
theorem test_reset_registers :
    readReg State.reset .cmd = 0#32 ∧ readReg State.reset .status = 0#32 ∧ readReg State.reset .rxdata = 0#32 ∧
    readReg State.reset .delay = 0x00000005#32 := by decide
/-- The word of a row placed at reset runs: `SET_DELAY 10`. -/
theorem test_withFetchWord : stepGives (State.reset.withFetchWord 32 0x50000A00)
    (fun t => t.delayUs == 10#16 && t.rc == .ok && t.host == []) = true := by decide +kernel
/-- R61: an access that is narrower, not aligned or outside the map is refused. -/
theorem test_refused_accesses :
    step { idleState [] with host := [.regRead 0x04 16] } = .refused (.registerAccess 0x04 16) ∧
    step { idleState [] with host := [.regRead 0x0E 32] } = .refused (.registerAccess 0x0E 32) ∧
    step { idleState [] with host := [.regWrite 0x10 32 0#32] } = .refused (.registerAccess 0x10 32) ∧
    step { idleState [] with host := [.bufRead 65536] } = .refused (.bufferIndex 65536) := ⟨rfl, rfl, rfl, rfl⟩
/-- R64: a host read of a byte nothing has written. -/
theorem test_unwritten_read :
    step { idleState [] with host := [.bufRead 65535] } = .fault (.bufUnwritten 65535) := rfl
/-- The buffer stays sorted, and a second write replaces the first. -/
theorem test_memory_canonical :
    Memory.write (Memory.write (Memory.write [] 7 1#8) 3 2#8) 7 9#8 = [(3, 2#8), (7, 9#8)] := by decide

/-! ### Witnesses: concrete values meeting the hypotheses of each statement -/

/-- The host about to make one access, in IDLE. -/
def asking (a : HostAccess) : State := { idleState [] with host := [a] }

/-- A buffer of one byte, written, so that the greatest legal length is 1. -/
def oneByte (plan : List (List (PerLine Bool))) : State :=
  { mk { Config.defaults with bufSize := 1 } .idle releasedLatch plan with buf := [(0, 0x42#8)] }

/-- A line driven high that is held low, and noted; a byte in the buffer; a buffer write waiting. -/
def clashing : State :=
  { idleState [] with
    bus := { latch := { releasedLatch with sda := { dir := true, out := true } }, ext := sdaHeld, contention := true,
             trace := [], plan := [], instant := 0 },
    buf := [(7, 0x42#8)], host := [.bufWrite 5 0x01#8] }

/-- EncodeOfDecode. -/
theorem test_witness_EncodeOfDecode : decode 0xB0000268#32 = .command (.writeMsg 0x68#7 2#16) := by decide
/-- OpcodeMapSelectsCommand: a row, a word with every operand bit set, and the same row twice. -/
theorem test_witness_OpcodeMapSelectsCommand :
    (⟨"READ_MSG", 0xC0000000#32, 0xFF000080#32⟩ : OpcodeRow) ∈ opcodeTable ∧
    0xC0FFFF7F#32 &&& 0xFF000080#32 = 0xC0000000#32 := by decide
/-- IllegalWordsAreRejected: the four reserved opcodes, and a row's word with one required zero bit set. -/
theorem test_witness_IllegalWordsAreRejected :
    (bitField 0x00000000#32 28 4 = 0x0#4 ∧ bitField 0xDFFFFFFF#32 28 4 = 0xD#4 ∧
      bitField 0xE0000000#32 28 4 = 0xE#4 ∧ bitField 0xFFFFFFFF#32 28 4 = 0xF#4) ∧
    (∃ r ∈ opcodeTable, 0xB00002E8#32 &&& 0xF0000000#32 = r.bits ∧ 0xB00002E8#32 &&& r.mask ≠ r.bits) := by decide
/-- StepRunsDecodedCommand. -/
theorem test_witness_StepRunsDecodedCommand :
    (asking (.regWrite 0 32 0x60000000#32)).cfg.ok = true ∧
    (asking (.regWrite 0 32 0x60000000#32)).host = .regWrite 0 32 0x60000000#32 :: [] ∧
    decode 0x60000000#32 = .command .start := by decide
/-- PlacedWordRuns. -/
theorem test_witness_PlacedWordRuns : State.reset.cfg.ok = true := by decide
/-- LegalityDecidesRejection, first part: a wrong phase, and a length one above the buffer size. -/
theorem test_witness_LegalityDecidesRejection_illegal :
    ¬ LegalNow .stop (idleState []) ∧ ¬ LegalNow .start (activeState []) ∧
    ¬ LegalNow (.readMsg 0x68#7 2#16) (oneByte []) := by
  simp [LegalNow, idleState, activeState, oneByte, mk, State.construct]
/-- LegalityDecidesRejection, second part: a length equal to the buffer size. -/
theorem test_witness_LegalityDecidesRejection_legal :
    LegalNow (.readMsg 0x68#7 1#16) (oneByte (quiet 107)) ∧
    ∃ t, exec (.readMsg 0x68#7 1#16) (oneByte (quiet 107)) = .next t :=
  ⟨⟨rfl, by decide⟩, ⟨_, rfl⟩⟩
/-- StepRejectsIllegalWord: a word that is no command, on each ground. -/
theorem test_witness_StepRejectsIllegalWord :
    (asking (.regWrite 0 32 0xFFFFFFFF#32)).cfg.ok = true ∧
    (asking (.regWrite 0 32 0xFFFFFFFF#32)).host = .regWrite 0 32 0xFFFFFFFF#32 :: [] ∧
    (∀ i, decode 0xFFFFFFFF#32 ≠ .command i) ∧ bitField 0xFFFFFFFF#32 28 4 = 0xF#4 ∧
    (asking (.regWrite 0 32 0x61000000#32)).host = .regWrite 0 32 0x61000000#32 :: [] ∧
    ∃ r ∈ opcodeTable, 0x61000000#32 &&& 0xF0000000#32 = r.bits ∧ 0x61000000#32 &&& r.mask ≠ r.bits :=
  ⟨by decide, rfl, (fun i h => by rw [show decode 0xFFFFFFFF#32 = .illegal .reservedBits by decide] at h; cases h),
    by decide, rfl, by decide⟩
/-- OnlyWriteMsgFaults and WriteMsgFaultIsUnwrittenByte, first part: vector M5. -/
theorem test_witness_fault_M5 :
    exec (.writeMsg 0x68#7 1#16) (idleState (script 97 [(89, sdaHeld)])) = .fault (.bufUnwritten 0) := by rfl
/-- WriteMsgFaultIsUnwrittenByte, second part: byte 1 is the first unwritten one, the last byte of the message. -/
theorem test_witness_WriteMsgFaultIsUnwrittenByte :
    ({ idleState [] with buf := [(0, 0x42#8)] } : State).ph = .idle ∧
    (2#16).toNat ≤ ({ idleState [] with buf := [(0, 0x42#8)] } : State).cfg.bufSize ∧ (1#16).toNat < (2#16).toNat ∧
    ({ idleState [] with buf := [(0, 0x42#8)] } : State).PayloadWritten (1#16).toNat ∧
    Memory.read [(0, 0x42#8)] (1#16).toNat = none := by decide
/-- The same state where the address byte is not acknowledged, as M6: no fault, `NACK`. -/
theorem test_writeMsg_unread_byte : gives 0xB0000268#32 { idleState (quiet 107) with buf := [(0, 0x42#8)] }
    (fun t => t.status == 0x1#32 && t.history.length == 107) = true := by decide +kernel
/-- LineLevelTable, a state for each clause. -/
theorem test_witness_LineLevelTable :
    ((lowLatch.get .sda).dir = true ∧ (lowLatch.get .sda).out = false) ∧ (releasedLatch.get .scl).dir = false ∧
    (none2.get .sda = false ∧ (clashing.bus.latch.get .sda).dir = true ∧
      (clashing.bus.latch.get .sda).out = true) := by decide
/-- PrimitiveTransitions: the other line. -/
theorem test_witness_PrimitiveTransitions : Line.sda ≠ Line.scl := by decide
/-- SampleCompletes: a line driven low, and a released one. -/
theorem test_witness_SampleCompletes :
    (activeState []).bus.latch.get .sda = { dir := true, out := false } ∧
    ((idleState []).bus.latch.get .scl).dir = false := by decide
/-- DriveLowAgainstHoldIsContention. -/
theorem test_witness_DriveLowAgainstHoldIsContention :
    (held sdaHeld (idleState (quiet 1))).bus.latch.get .sda = { dir := false, out := true } ∧
    (held sdaHeld (idleState (quiet 1))).bus.ext.get .sda = true ∧
    (held sdaHeld (idleState (quiet 1))).bus.plan.take 1 = [[]] := by decide
/-- StartCompletes. -/
theorem test_witness_StartCompletes : (idleState []).ph = .idle := by decide
/-- RstartCompletes, StopCompletes, WriteByteCompletes, ReadByteCompletes. -/
theorem test_witness_active : (activeState []).ph = .active := by decide
/-- HeldSclStopTimesOut: vector S6. -/
theorem test_witness_HeldSclStopTimesOut :
    (held sclHeld (mk (polls 2) .active lowLatch (quiet 11))).ph = .active ∧
    (held sclHeld (mk (polls 2) .active lowLatch (quiet 11))).SclHeldFor (9 + 2) := by decide
/-- ByteEventCounts. -/
theorem test_witness_ByteEventCounts :
    (activeState []).ph = .active ∧ 0 < (activeState []).cfg.stretchPolls := by decide
/-- WriteByteReportsTheNinthClock: the three environments. -/
theorem test_witness_WriteByteReportsTheNinthClock :
    (activeState (quiet 92)).ph = .active ∧ 0 < (activeState (quiet 92)).cfg.stretchPolls ∧
    (activeState (quiet 92)).QuietFor 92 ∧ ackScript.length = 92 ∧ (activeState ackScript).Scripted ackScript ∧
    (held sdaHeld (activeState (quiet 92))).SdaHeldFor 92 :=
  ⟨by decide, by decide, ⟨rfl, rfl⟩, rfl, ⟨rfl, rfl⟩, ⟨rfl, rfl⟩⟩
/-- ReadByteReturnsWhatIsSent: the three environments; the script is the tests' own `SEND(0x68)`. -/
theorem test_witness_ReadByteReturnsWhatIsSent :
    (activeState (quiet 77)).ph = .active ∧ 0 < (activeState (quiet 77)).cfg.stretchPolls ∧
    (activeState (quiet 77)).QuietFor 77 ∧ (held sdaHeld (activeState (quiet 77))).SdaHeldFor 77 ∧
    (activeState (sendScript 0x68#8)).Scripted (sendScript 0x68#8) ∧
    sendScript 0x68#8 = script 77 (sendMoves 0 0x68#8) :=
  ⟨by decide, by decide, ⟨rfl, rfl⟩, ⟨rfl, rfl⟩, ⟨rfl, rfl⟩, by decide +kernel⟩
/-- HalfCyclesPerCommand, each clause. -/
theorem test_witness_HalfCyclesPerCommand :
    ((activeState (quiet 92)).ph = .active ∧ ∃ t, exec (.writeByte 0xD0#8) (activeState (quiet 92)) = .next t) ∧
    (∃ t, exec (.readByte .nack) (activeState (quiet 92)) = .next t) ∧
    ((idleState (quiet 5)).ph = .idle ∧ ∃ t, exec .start (idleState (quiet 5)) = .next t) ∧
    (∃ t, exec .rstart (activeState (quiet 92)) = .next t) ∧
    (∃ t, exec .stop (activeState (quiet 92)) = .next t) :=
  ⟨⟨rfl, _, rfl⟩, ⟨_, rfl⟩, ⟨rfl, _, rfl⟩, ⟨_, rfl⟩, ⟨_, rfl⟩⟩
/-- WriteMsgCompletes and ReadMsgCompletes, at the greatest legal length. -/
theorem test_witness_messages_complete :
    (oneByte []).ph = .idle ∧ (1#16).toNat = (oneByte []).cfg.bufSize ∧ (oneByte []).PayloadWritten (1#16).toNat := by
  decide
/-- FailedAddressSendsNoPayload, each clause: nothing acknowledges the address. -/
theorem test_witness_FailedAddressSendsNoPayload :
    (openMessage 0x68#7 .write (clearTimeout (oneByte (quiet 97)))).1 ≠ .ok ∧
    (openMessage 0x68#7 .read (clearTimeout (oneByte (quiet 97)))).1 ≠ .ok := by decide +kernel
/-- QuietBusMessageIsNack. -/
theorem test_witness_QuietBusMessageIsNack :
    (oneByte (quiet 107)).ph = .idle ∧ (1#16).toNat ≤ (oneByte (quiet 107)).cfg.bufSize ∧
    0 < (oneByte (quiet 107)).cfg.stretchPolls ∧ (oneByte (quiet 107)).QuietFor 107 := by
  refine ⟨by decide, by decide, by decide, by decide, rfl⟩
/-- LinesReleasedAfterStop: the three commands, the lines not held afterwards. -/
theorem test_witness_LinesReleasedAfterStop :
    (LegalNow .stop (activeState (quiet 107)) ∧ LegalNow (.writeMsg 0x68#7 0#16) (idleState (quiet 107)) ∧
      LegalNow (.readMsg 0x68#7 0#16) (idleState (quiet 107))) ∧
    gives 0x80000000#32 (activeState (quiet 107)) (fun t => t.bus.ext == none2) = true ∧
    gives 0xB0000068#32 (idleState (quiet 107)) (fun t => t.bus.ext == none2) = true ∧
    gives 0xC0000068#32 (idleState (quiet 107)) (fun t => t.bus.ext == none2) = true :=
  ⟨⟨rfl, ⟨rfl, by decide⟩, ⟨rfl, by decide⟩⟩, by decide +kernel, by decide +kernel, by decide +kernel⟩
/-- PhaseWriters: START, STOP and another command. -/
theorem test_witness_PhaseWriters :
    (∃ t, exec .start (idleState (quiet 5)) = .next t) ∧ (∃ t, exec .stop (activeState (quiet 10)) = .next t) ∧
    ∃ t, exec .halfDelay (activeState (quiet 1)) = .next t :=
  ⟨⟨_, rfl⟩, ⟨_, rfl⟩, ⟨_, rfl⟩⟩
/-- RegisterWriters: a command outside every list, and a read message with an index at its length. -/
theorem test_witness_RegisterWriters :
    (∃ t, exec .start (idleState (quiet 5)) = .next t) ∧ (∃ t, exec (.sample .sda) (idleState (quiet 1)) = .next t) ∧
    (∃ t, exec (.readMsg 0x68#7 1#16) (oneByte (quiet 107)) = .next t) ∧ (1#16).toNat ≤ 1 :=
  ⟨⟨_, rfl⟩, ⟨_, rfl⟩, ⟨_, rfl⟩, by decide⟩
/-- EventBounds: a legal command, one that is not, and an illegal word. -/
theorem test_witness_EventBounds :
    0 < (idleState (quiet 5)).cfg.stretchPolls ∧
    (LegalNow .start (idleState (quiet 5)) ∧ ∃ t, exec .start (idleState (quiet 5)) = .next t) ∧
    (¬ LegalNow .stop (idleState (quiet 5)) ∧ ∃ t, exec .stop (idleState (quiet 5)) = .next t) ∧
    decode 0x00000000#32 = .illegal .reservedOpcode :=
  ⟨by decide, ⟨rfl, _, rfl⟩, ⟨(fun h => by cases h), _, rfl⟩, by decide⟩
/-- RecordsOnlyGrow, TraceTellsTheLines and StepKeepsInvariant: contention present and noted, a byte written, a buffer write waiting. -/
theorem test_witness_StepKeepsInvariant :
    clashing.Inv ∧ clash clashing.bus.latch clashing.bus.ext = true ∧ clashing.bus.contention = true ∧
    ∃ t, step clashing = .next t :=
  ⟨by decide, by decide, by decide, _, rfl⟩
/-- StatusWordFields: a host write to `STATUS`. -/
theorem test_witness_StatusWordFields :
    (asking (.regWrite 4 32 0xFFFFFFFF#32)).cfg.ok = true ∧
    (asking (.regWrite 4 32 0xFFFFFFFF#32)).host = .regWrite 4 32 0xFFFFFFFF#32 :: [] := by decide
/-- HostAccessSideEffects: the first and last register read, the last register written, the last byte of the buffer. -/
theorem test_witness_HostAccessSideEffects :
    ((0 : Nat) ∈ [0, 4, 8, 12] ∧ (12 : Nat) ∈ [0, 4, 8, 12] ∧
      (asking (.regRead 0 32)).host = .regRead 0 32 :: [] ∧ (asking (.regRead 12 32)).host = .regRead 12 32 :: []) ∧
    ((12 : Nat) ∈ [4, 8, 12] ∧ (asking (.regWrite 12 32 1#32)).host = .regWrite 12 32 1#32 :: []) ∧
    ((asking (.bufWrite 65535 9#8)).host = .bufWrite 65535 9#8 :: [] ∧
      65535 < (asking (.bufWrite 65535 9#8)).cfg.bufSize) ∧
    (({ oneByte [] with host := [.bufRead 0] } : State).host = .bufRead 0 :: [] ∧
      0 < (oneByte []).cfg.bufSize ∧ Memory.read (oneByte []).buf 0 = some 0x42#8) := by decide
/-- HostRegisterMap: the four reads, and refused accesses on each ground; the last register is on none of them. -/
theorem test_witness_HostRegisterMap :
    ((asking (.regRead 0x00 32)).host = .regRead 0x00 32 :: [] ∧
      (asking (.regRead 0x04 32)).host = .regRead 0x04 32 :: [] ∧
      (asking (.regRead 0x08 32)).host = .regRead 0x08 32 :: [] ∧
      (asking (.regRead 0x0C 32)).host = .regRead 0x0C 32 :: []) ∧
    ((16 : Nat) ≠ 32 ∧ (0x0E : Nat) % 4 ≠ 0 ∧ (0x0F : Nat) < 0x10) ∧
    ¬ ((32 : Nat) ≠ 32 ∨ (0x0C : Nat) % 4 ≠ 0 ∨ (0x0F : Nat) < 0x0C) ∧
    (asking (.regRead 0x0E 32)).host = .regRead 0x0E 32 :: [] ∧
    (asking (.regWrite 0x10 32 7#32)).host = .regWrite 0x10 32 7#32 :: [] := by decide
/-- HostBufferReadBack, each clause, at the last index inside the buffer and the first outside. -/
theorem test_witness_HostBufferReadBack :
    (({ idleState [] with host := [.bufWrite 65535 9#8, .bufRead 65535] } : State).host =
        .bufWrite 65535 9#8 :: .bufRead 65535 :: [] ∧ 65535 < (idleState []).cfg.bufSize) ∧
    ((asking (.bufRead 65535)).host = .bufRead 65535 :: [] ∧
      Memory.read (asking (.bufRead 65535)).buf 65535 = none) ∧
    ((asking (.bufRead 65536)).host = .bufRead 65536 :: [] ∧ (asking (.bufRead 65536)).cfg.bufSize ≤ 65536) ∧
    (asking (.bufWrite 65536 9#8)).host = .bufWrite 65536 9#8 :: [] := by decide
/-- RefusedConfigurations: a configuration for each ground, and one on none. -/
theorem test_witness_RefusedConfigurations :
    step (mk { Config.defaults with sdaBind := none } .idle releasedLatch []) = .refused .configuration ∧
    step (mk { Config.defaults with sclBind := none } .idle releasedLatch []) = .refused .configuration ∧
    step (mk { Config.defaults with sclBind := Config.defaults.sdaBind } .idle releasedLatch []) =
      .refused .configuration ∧
    step (mk (polls 0) .idle releasedLatch []) = .refused .configuration ∧
    step (mk { Config.defaults with bufSize := 0 } .idle releasedLatch []) = .refused .configuration ∧
    step (mk { Config.defaults with bufSize := 65537 } .idle releasedLatch []) = .refused .configuration ∧
    ∃ t, step (mk { polls 1 with bufSize := 1 } .idle releasedLatch (quiet 1)) = .next t :=
  ⟨rfl, rfl, rfl, rfl, rfl, rfl, _, rfl⟩
/-- IdleStepIsEnvironments, with one planned move. -/
theorem test_witness_IdleStepIsEnvironments :
    (idleState [[sdaHeld]]).cfg.ok = true ∧ (idleState [[sdaHeld]]).host = [] ∧
    (idleState [[sdaHeld]]).bus.plan = [sdaHeld] :: [] := by decide
/-- WireSymbolsOnQuietBus, each clause. -/
theorem test_witness_WireSymbolsOnQuietBus :
    ((idleState (quiet 5)).ph = .idle ∧ (idleState (quiet 5)).Released ∧ (idleState (quiet 5)).QuietFor 5) ∧
    ((activeState (quiet 92)).ph = .active ∧
      (activeState (quiet 92)).bus.latch.scl = { dir := true, out := false } ∧
      0 < (activeState (quiet 92)).cfg.stretchPolls) ∧
    (activeState (quiet 12)).QuietFor 12 ∧ (activeState (quiet 10)).QuietFor 10 ∧
    (activeState (quiet 92)).QuietFor 92 :=
  ⟨by decide, by decide, by decide, by decide, by decide, rfl⟩

end Sys2Proof.Machine.Tests
end

section
/-! PROOFS. The opcode map (30_encoding.md R90 to R93): each row is one arm of the decoder, and its mask covers the
fields that arm tests. -/

namespace Sys2Proof

/-- The word with ones in the `n` bits from `lo` on. -/
def fieldMask (lo n : Nat) : Word := (BitVec.allOnes n).setWidth 32 <<< lo

theorem fieldMask_getLsbD {lo n k : Nat} (hk : k < 32) :
    (fieldMask lo n).getLsbD k = (decide (lo ≤ k) && decide (k < lo + n)) := by
  rw [fieldMask, BitVec.getLsbD_shiftLeft, BitVec.getLsbD_setWidth, BitVec.getLsbD_allOnes]
  by_cases hl : lo ≤ k
  · simp [hk, hl, show k - lo < 32 by omega, Nat.sub_lt_iff_lt_add' hl]
  · simp [hk, hl, show k < lo by omega]

/-- Two words agree under a field's mask when they agree in the field. -/
theorem and_fieldMask_eq_iff {lo n : Nat} (h : lo + n ≤ 32) (v w : Word) :
    v &&& fieldMask lo n = w &&& fieldMask lo n ↔ bitField v lo n = bitField w lo n := by
  constructor
  · intro he
    refine BitVec.eq_of_getLsbD_eq fun i hi => ?_
    have hbit := congrArg (BitVec.getLsbD · (lo + i)) he
    rw [bitField_getLsbD, bitField_getLsbD]
    simpa [fieldMask_getLsbD (show lo + i < 32 by omega), hi] using hbit
  · intro he
    refine word_ext fun k hk => ?_
    rw [BitVec.getLsbD_and, BitVec.getLsbD_and, fieldMask_getLsbD hk]
    by_cases hin : lo ≤ k ∧ k < lo + n
    · have hbit := congrArg (BitVec.getLsbD · (k - lo)) he
      simp only [bitField_getLsbD, Nat.add_sub_cancel' hin.1, decide_eq_true (show k - lo < n by omega),
        Bool.true_and] at hbit
      rw [hbit]
    · rw [← Bool.decide_and, decide_eq_false hin, Bool.and_false, Bool.and_false]

/-- Two words agree under the union of two masks when they agree under each. -/
theorem and_or_eq_iff (v w m m' : Word) :
    v &&& (m ||| m') = w &&& (m ||| m') ↔ v &&& m = w &&& m ∧ v &&& m' = w &&& m' := by
  constructor
  · intro h
    have hm : (m ||| m') &&& m = m := by ext; simp +contextual
    have hm' : (m ||| m') &&& m' = m' := by ext; simp +contextual
    constructor
    · rw [← hm, ← BitVec.and_assoc, h, BitVec.and_assoc]
    · rw [← hm', ← BitVec.and_assoc, h, BitVec.and_assoc]
  · rintro ⟨h, h'⟩
    rw [BitVec.and_or_distrib_left, BitVec.and_or_distrib_left, h, h']

theorem bitField_formatN_opcode (opc : BitVec 4) : bitField (formatN opc) 28 4 = opc := by
  revert opc
  decide

theorem bitField_formatN_low {lo n : Nat} (h : lo + n ≤ 28) (opc : BitVec 4) :
    bitField (formatN opc) lo n = 0#n := by
  refine BitVec.eq_of_getLsbD_eq fun i hi => ?_
  rw [bitField_getLsbD, formatN_getLsbD, if_pos (by omega), Bool.and_false, BitVec.getLsbD_zero]

/-- R90: bits 31:28 of a word are its opcode. -/
theorem and_opcodeMask_eq_formatN_iff (w : Word) (opc : BitVec 4) :
    w &&& 0xF0000000#32 = formatN opc ↔ bitField w 28 4 = opc := by
  have hmask : 0xF0000000#32 = fieldMask 28 4 := by decide
  have hself : formatN opc &&& 0xF0000000#32 = formatN opc := by revert opc; decide
  rw [← hself, hmask, and_fieldMask_eq_iff (by decide), bitField_formatN_opcode]

/-- Row `r` of the opcode map is the decoder's arm of opcode `opc`: its format requires bits 27:24 and the `n` bits from
`lo` on to be zero, and its command, of the row's mnemonic, is `read w`. -/
structure IsArm (r : OpcodeRow) (opc : BitVec 4) (lo n : Nat) (read : Word → Instr) : Prop where
  bits : r.bits = formatN opc
  mask : r.mask = fieldMask 28 4 ||| (fieldMask 24 4 ||| fieldMask lo n)
  covers : r.bits &&& r.mask = r.bits
  inside : lo + n ≤ 28
  mnemonic : ∀ w, (read w).mnemonic = r.mnemonic
  decodes : ∀ w, bitField w 28 4 = opc → bitField w 24 4 = 0#4 → decode w = whenZero (bitField w lo n) (read w)

theorem exists_isArm {r : OpcodeRow} (h : r ∈ opcodeTable) : ∃ opc lo n read, IsArm r opc lo n read := by
  simp only [opcodeTable, List.mem_cons, List.not_mem_nil, or_false] at h
  rcases h with rfl | rfl | rfl | rfl | rfl | rfl | rfl | rfl | rfl | rfl | rfl | rfl <;>
    [refine ⟨0x1#4, 1, 23, fun w => .driveLow (lineOfBit (bitField w 0 1)), ?_⟩;
     refine ⟨0x2#4, 1, 23, fun w => .release (lineOfBit (bitField w 0 1)), ?_⟩;
     refine ⟨0x3#4, 1, 23, fun w => .sample (lineOfBit (bitField w 0 1)), ?_⟩;
     refine ⟨0x4#4, 0, 24, fun _ => .halfDelay, ?_⟩;
     refine ⟨0x5#4, 0, 8, fun w => .setDelay (bitField w 8 16), ?_⟩;
     refine ⟨0x6#4, 0, 24, fun _ => .start, ?_⟩;
     refine ⟨0x7#4, 0, 24, fun _ => .rstart, ?_⟩;
     refine ⟨0x8#4, 0, 24, fun _ => .stop, ?_⟩;
     refine ⟨0x9#4, 8, 16, fun w => .writeByte (bitField w 0 8), ?_⟩;
     refine ⟨0xA#4, 1, 23, fun w => .readByte (ackOfBit (bitField w 0 1)), ?_⟩;
     refine ⟨0xB#4, 7, 1, fun w => .writeMsg (bitField w 0 7) (bitField w 8 16), ?_⟩;
     refine ⟨0xC#4, 7, 1, fun w => .readMsg (bitField w 0 7) (bitField w 8 16), ?_⟩]
  all_goals
    exact ⟨by decide, by decide, by decide, by decide, fun _ => rfl, fun w ho hz => by simp [decode, ho, hz]⟩

/-- R90, R91: a word matches a row when it has the row's opcode and the zero bits of its format. -/
theorem IsArm.match_iff {r : OpcodeRow} {opc : BitVec 4} {lo n : Nat} {read : Word → Instr}
    (a : IsArm r opc lo n read) (w : Word) :
    w &&& r.mask = r.bits ↔ bitField w 28 4 = opc ∧ bitField w 24 4 = 0#4 ∧ bitField w lo n = 0#n := by
  have hin := a.inside
  rw [← a.covers, a.mask, a.bits, and_or_eq_iff, and_or_eq_iff, and_fieldMask_eq_iff (by decide),
    and_fieldMask_eq_iff (by decide), and_fieldMask_eq_iff (by omega), bitField_formatN_opcode,
    bitField_formatN_low (by decide), bitField_formatN_low hin]

theorem whenZero_eq_command_iff {n : Nat} (z : BitVec n) (i j : Instr) :
    whenZero z i = .command j ↔ z = 0#n ∧ i = j := by
  unfold whenZero
  split <;> simp [*]

/-- R91: a word with bits 27:24 not zero is no command. -/
theorem decode_ne_command_of_bits27_24 {w : Word} (h : bitField w 24 4 ≠ 0#4) (i : Instr) :
    decode w ≠ .command i := by
  simp [decode, h]

/-- R92: a word with a reserved opcode is no command. -/
theorem decode_ne_command_of_reservedOpcode {w : Word}
    (h : bitField w 28 4 = 0x0#4 ∨ bitField w 28 4 = 0xD#4 ∨ bitField w 28 4 = 0xE#4 ∨ bitField w 28 4 = 0xF#4)
    (i : Instr) : decode w ≠ .command i := by
  by_cases hz : bitField w 24 4 = 0#4
  · rcases h with h | h | h | h <;> simp [decode, hz, h]
  · exact decode_ne_command_of_bits27_24 hz i

/-- What a word with the opcode of a row decodes to: the arm's command, and only where it matches the row. -/
theorem IsArm.decode_eq_command_iff {r : OpcodeRow} {opc : BitVec 4} {lo n : Nat} {read : Word → Instr}
    (a : IsArm r opc lo n read) {w : Word} (ho : bitField w 28 4 = opc) (i : Instr) :
    decode w = .command i ↔ w &&& r.mask = r.bits ∧ read w = i := by
  rw [a.match_iff]
  by_cases hz : bitField w 24 4 = 0#4
  · rw [a.decodes w ho hz, whenZero_eq_command_iff]
    simp [ho, hz]
  · simp [hz, decode_ne_command_of_bits27_24 hz i]

/-- R90, R92: an opcode is reserved or a row's. -/
theorem reserved_or_row (opc : BitVec 4) :
    (opc = 0x0#4 ∨ opc = 0xD#4 ∨ opc = 0xE#4 ∨ opc = 0xF#4) ∨ ∃ r ∈ opcodeTable, r.bits = formatN opc := by
  revert opc
  decide

theorem opcodeRow_eq_of_bits {r q : OpcodeRow} (hr : r ∈ opcodeTable) (hq : q ∈ opcodeTable)
    (h : r.bits = q.bits) : r = q :=
  List.inj_on_of_nodup_map (f := OpcodeRow.bits) (by decide) hr hq h

theorem opcodeRow_eq_of_mnemonic {r q : OpcodeRow} (hr : r ∈ opcodeTable) (hq : q ∈ opcodeTable)
    (h : r.mnemonic = q.mnemonic) : r = q :=
  List.inj_on_of_nodup_map (f := OpcodeRow.mnemonic) (by decide) hr hq h

/-- R90: a word that matches a row has that row's opcode. -/
theorem bits_eq_of_match {r : OpcodeRow} (hr : r ∈ opcodeTable) {w : Word} (h : w &&& r.mask = r.bits) :
    r.bits = formatN (bitField w 28 4) := by
  obtain ⟨opc, lo, n, read, a⟩ := exists_isArm hr
  obtain ⟨rfl, -, -⟩ := (a.match_iff w).1 h
  exact a.bits

/-- A word that decodes to a command matches a row of the command's mnemonic. -/
theorem exists_row_of_decode {w : Word} {i : Instr} (h : decode w = .command i) :
    ∃ r ∈ opcodeTable, w &&& r.mask = r.bits ∧ i.mnemonic = r.mnemonic := by
  rcases reserved_or_row (bitField w 28 4) with hres | ⟨r, hr, hbits⟩
  · exact absurd h (decode_ne_command_of_reservedOpcode hres i)
  · obtain ⟨opc, lo, n, read, a⟩ := exists_isArm hr
    have ho : bitField w 28 4 = opc := by
      rw [← bitField_formatN_opcode opc, ← a.bits, hbits, bitField_formatN_opcode]
    obtain ⟨hmatch, rfl⟩ := (a.decode_eq_command_iff ho i).1 h
    exact ⟨r, hr, hmatch, a.mnemonic w⟩

/-- A word that matches a row decodes to a command of the row's mnemonic. -/
theorem exists_decode_of_match {r : OpcodeRow} (hr : r ∈ opcodeTable) {w : Word} (h : w &&& r.mask = r.bits) :
    ∃ i, decode w = .command i ∧ i.mnemonic = r.mnemonic := by
  obtain ⟨opc, lo, n, read, a⟩ := exists_isArm hr
  obtain ⟨ho, -, -⟩ := (a.match_iff w).1 h
  exact ⟨read w, (a.decode_eq_command_iff ho _).2 ⟨h, rfl⟩, a.mnemonic w⟩

/-- R91: a word with the opcode of a row that does not match the row is no command. -/
theorem decode_ne_command_of_not_match {r : OpcodeRow} (hr : r ∈ opcodeTable) {w : Word}
    (ho : w &&& 0xF0000000#32 = r.bits) (h : w &&& r.mask ≠ r.bits) (i : Instr) : decode w ≠ .command i := by
  obtain ⟨opc, lo, n, read, a⟩ := exists_isArm hr
  rw [a.bits, and_opcodeMask_eq_formatN_iff] at ho
  exact fun hd => h ((a.decode_eq_command_iff ho i).1 hd).1

/-- Settles O3: a match selects the arm of the row's opcode, and rows differ in their opcode and their mnemonic. -/
theorem opcodeMapSelectsCommand : Obligations.OpcodeMapSelectsCommand := by
  unfold Obligations.OpcodeMapSelectsCommand
  refine ⟨fun r hr w => ⟨exists_decode_of_match hr, ?_⟩, fun r hr q hq w hw hw' => ?_⟩
  · rintro ⟨i, hd, hi⟩
    obtain ⟨q, hq, hmatch, hi'⟩ := exists_row_of_decode hd
    rwa [opcodeRow_eq_of_mnemonic hr hq (hi.symm.trans hi')]
  · exact opcodeRow_eq_of_bits hr hq ((bits_eq_of_match hr hw).trans (bits_eq_of_match hq hw').symm)

end Sys2Proof
end

section
/-! PROOFS. The command port on words that are no command (30_encoding.md R91, R92, R96). -/

namespace Sys2Proof.Machine

/-- R93, R96: a word that is no command is rejected. -/
theorem command_of_ne_command {w : Word} (h : ∀ i, decode w ≠ .command i) (s : State) :
    command w s = .next (reject s) := by
  cases hd : decode w with
  | command i => exact absurd hd (h i)
  | illegal c => simp only [command, hd]

/-- Settles O4: on both grounds the word is no command. -/
theorem illegalWordsAreRejected : Obligations.IllegalWordsAreRejected := by
  unfold Obligations.IllegalWordsAreRejected
  refine fun w s => ⟨fun hres => ?_, ?_⟩
  · exact command_of_ne_command (decode_ne_command_of_reservedOpcode hres) s
  · rintro ⟨r, hr, ho, hne⟩
    exact command_of_ne_command (decode_ne_command_of_not_match hr ho hne) s

end Sys2Proof.Machine
end

section
/-! PROOFS. Legality and the result code (30_encoding.md R97, 42_framing.md R188): no part of a legal command gives
`ILLEGAL`. -/

namespace Sys2Proof.Machine

theorem openMessage_ne_illegal (addr : Addr7) (rw : Direction) (s : State) :
    (openMessage addr rw s).1 ≠ .illegal :=
  byteResult_ne_illegal _ _ _

theorem sendPayload_ne_illegal {n i : Nat} {r r' : ResultCode} {s t : State} (hr : r ≠ .illegal)
    (h : sendPayload n i r s = .running r' t) : r' ≠ .illegal := by
  induction n generalizing i r s with
  | zero =>
    simp only [sendPayload, Progress.running.injEq] at h
    exact h.1 ▸ hr
  | succ n ih =>
    by_cases hok : r = .ok
    · subst hok
      simp only [sendPayload] at h
      split at h
      · simp at h
      · exact ih (byteResult_ne_illegal _ _ _) h
    · rw [sendPayload_failed _ _ _ hok, Progress.running.injEq] at h
      exact h.1 ▸ hr

theorem recvPayload_ne_illegal (n i : Nat) {r : ResultCode} (s : State) (hr : r ≠ .illegal) :
    (recvPayload n i r s).1 ≠ .illegal := by
  induction n generalizing i r s with
  | zero => exact hr
  | succ n ih => exact ih _ _ (andThen_ne_illegal hr (readResult_ne_illegal _ _))

theorem readPayload_ne_illegal (n : Nat) {r : ResultCode} (s : State) (hr : r ≠ .illegal) :
    (readPayload n r s).1 ≠ .illegal := by
  cases r with
  | ok => exact recvPayload_ne_illegal n 0 s hr
  | nack => exact hr
  | timeout => exact hr
  | illegal => exact hr

theorem closeMessage_rc_ne_illegal {r : ResultCode} (s : State) (hr : r ≠ .illegal) :
    (closeMessage r s).rc ≠ .illegal :=
  andThen_ne_illegal hr (readResult_ne_illegal _ _)

/-- A command that ends in `finish` with another result does not end with `ILLEGAL`. -/
theorem rc_ne_illegal_of_finish {r : ResultCode} {u t : State} {a : Answer} (hr : r ≠ .illegal)
    (ha : a = .next (finish r u)) (h : a = .next t) : t.rc ≠ .illegal := by
  rw [ha, Host.Outcome.next.injEq] at h
  exact h ▸ hr

/-- R97: a legal command never ends with `ILLEGAL`. -/
theorem exec_legal_rc_ne_illegal {i : Instr} {s t : State} (hl : LegalNow i s) (h : exec i s = .next t) :
    t.rc ≠ .illegal := by
  cases i with
  | driveLow l => exact rc_ne_illegal_of_finish (by decide) (exec_driveLow l s) h
  | release l => exact rc_ne_illegal_of_finish (by decide) (exec_release l s) h
  | sample l => exact rc_ne_illegal_of_finish (by decide) (exec_sample l s) h
  | halfDelay => exact rc_ne_illegal_of_finish (by decide) (exec_halfDelay s) h
  | setDelay us => exact rc_ne_illegal_of_finish (by decide) (exec_setDelay us s) h
  | start => exact rc_ne_illegal_of_finish (by decide) (exec_start hl) h
  | rstart => exact rc_ne_illegal_of_finish (readResult_ne_illegal _ _) (exec_rstart hl) h
  | stop => exact rc_ne_illegal_of_finish (readResult_ne_illegal _ _) (exec_stop hl) h
  | writeByte d => exact rc_ne_illegal_of_finish (byteResult_ne_illegal _ _ _) (exec_writeByte d hl) h
  | readByte a => exact rc_ne_illegal_of_finish (readResult_ne_illegal _ _) (exec_readByte a hl) h
  | writeMsg addr len =>
    rw [exec_writeMsg addr len hl] at h
    have ho := openMessage_ne_illegal addr .write (clearTimeout s)
    generalize openMessage addr .write (clearTimeout s) = o at *
    cases hs : sendPayload len.toNat 0 o.1 o.2 with
    | running r u =>
      rw [hs] at h
      have ht : closeMessage r u = t := by simpa [answerOf] using h
      exact ht ▸ closeMessage_rc_ne_illegal u (sendPayload_ne_illegal ho hs)
    | stopped f => simp [hs, answerOf] at h
  | readMsg addr len =>
    rw [exec_readMsg addr len hl, Host.Outcome.next.injEq] at h
    have ho := openMessage_ne_illegal addr .read (clearTimeout s)
    generalize openMessage addr .read (clearTimeout s) = o at *
    exact h ▸ closeMessage_rc_ne_illegal _ (readPayload_ne_illegal _ _ ho)

/-- Settles O9: `reject` where the table of R97 says no, and no part of a legal command gives `ILLEGAL`. -/
theorem legalityDecidesRejection : Obligations.LegalityDecidesRejection := by
  unfold Obligations.LegalityDecidesRejection
  exact ⟨fun _ _ hl => exec_illegal hl, fun _ _ _ hl h => exec_legal_rc_ne_illegal hl h⟩

end Sys2Proof.Machine
end

section
/-! PROOFS. The line layer (40_line_and_timing.md R115 to R117, 10_state.md R28): the latches the primitives leave, the
level a sample returns, and what the one-event commands leave alone. -/

namespace Sys2Proof.Machine

theorem PerLine.get_set_of_ne {α : Type} (p : PerLine α) {k l : Line} (h : k ≠ l) (v : α) :
    (p.set l v).get k = p.get k := by
  cases l with
  | sda => cases k with
    | sda => exact absurd rfl h
    | scl => rfl
  | scl => cases k with
    | sda => rfl
    | scl => exact absurd rfl h

/-- R110: the latch a GPIO write leaves on the line it writes. -/
theorem Bus.gpioWrite_latch_get_self (l : Line) (f : LatchBit) (v : Bool) (b : Bus) :
    (b.gpioWrite l f v).latch.get l = (b.latch.get l).put f v := by
  rw [Bus.gpioWrite_latch, PerLine.get_set_self]

/-- Settles O12: the first micro-step is one GPIO write, and each primitive sets the latch of its own line. -/
theorem primitiveTransitions : Obligations.PrimitiveTransitions := by
  unfold Obligations.PrimitiveTransitions
  refine fun b l k => ⟨b.gpioWrite_latch_get_self l .dir true, ?_, b.gpioWrite_latch_get_self l .dir false, ?_,
    fun hk => ⟨?_, ?_⟩⟩
  · rw [Bus.driveLow_latch, PerLine.get_set_self]
  · rw [Bus.release_latch, PerLine.get_set_self]
  · rw [Bus.driveLow_latch, PerLine.get_set_of_ne _ hk]
  · rw [Bus.release_latch, PerLine.get_set_of_ne _ hk]

/-- R28: a line the engine drives low is low. -/
theorem Bus.level_of_drivenLow {b : Bus} {l : Line} (hd : (b.latch.get l).dir = true)
    (ho : (b.latch.get l).out = false) : b.level l = false := by
  rw [Bus.level, levelAt_wiredAnd (fun hc => by simp [hc.2.1] at ho), wiredAnd, if_pos ⟨hd, ho⟩]

/-- R28: a line the engine does not drive is high unless it is held. -/
theorem Bus.level_of_input {b : Bus} {l : Line} (hd : (b.latch.get l).dir = false) :
    b.level l = !(b.ext.get l) := by
  rw [Bus.level, levelAt_wiredAnd (fun hc => by simp [hc.1] at hd), wiredAnd, if_neg (by simp [hd])]

/-- R41: a level as the byte `RXDATA` holds. -/
theorem byteOfLevel_eq (v : Bool) : byteOfLevel v = if v then 1#8 else 0#8 := by
  cases v <;> rfl

theorem clearTimeout_carries (s : State) : Carries s (clearTimeout s) := ⟨rfl, rfl, rfl, rfl, rfl, rfl, rfl, rfl⟩

theorem Carries.sameBuffer {s t : State} (h : Carries s t) : SameBuffer s t := fun _ => by rw [h.buf]

theorem Carries.sameSetting {s t : State} (h : Carries s t) : SameSetting s t := ⟨h.cfg, h.host, h.replies⟩

/-- Settles O15: a sample is one read event that returns the level after the gap. -/
theorem sampleCompletes : Obligations.SampleCompletes := by
  unfold Obligations.SampleCompletes
  intro l s
  have hrun := sample_runs l (clearTimeout s)
  have hkeep := (clearTimeout_carries s).trans hrun.carries
  have hlow : s.bus.latch.get l = { dir := true, out := false } → s.bus.gap.level l = false := fun h =>
    Bus.level_of_drivenLow (congrArg Latch.dir h) (congrArg Latch.out h)
  have hinput : (s.bus.latch.get l).dir = false → s.bus.gap.level l = !(s.bus.gap.ext.get l) := fun h =>
    Bus.level_of_input h
  exact ⟨_, s.bus.gap.level l, exec_sample l s, hrun.history, byteOfLevel_eq _, hlow, hinput,
    Bus.gpioRead_latch l _, rfl, hrun.timedOut, hkeep.ph, hkeep.delayUs, hkeep.sameBuffer, hkeep.sameSetting⟩

/-- Settles O16: a half delay is one delay event of the microseconds held in `DELAY.US`. -/
theorem halfDelayCompletes : Obligations.HalfDelayCompletes := by
  unfold Obligations.HalfDelayCompletes
  intro s
  have hrun := halfDelay_runs (clearTimeout s)
  have hkeep := (clearTimeout_carries s).trans hrun.carries
  exact ⟨_, exec_halfDelay s, hrun.history, Bus.delay_latch _ _, rfl, hrun.timedOut, hkeep.ph, hkeep.rxdata,
    hkeep.delayUs, hkeep.sameBuffer, hkeep.sameSetting⟩

end Sys2Proof.Machine
end

section
/-! PROOFS. The byte commands (41_byte_transfer.md R141 to R144, R150, R151): the events of one byte, and the result its
acknowledgment and its waits give. -/

namespace Sys2Proof.Machine

/-- R143: the result of a written byte. -/
theorem byteResult_eq (p ack t : Bool) :
    byteResult p ack t = if t = true ∧ p = true then .timeout else if ack = false then .ok else .nack := by
  simp only [byteResult, Bool.and_eq_true]
  cases ack with
  | false => rfl
  | true => rfl

/-- Settles O24: the two tables of R143. -/
theorem byteResultTables : Obligations.ByteResultTables := by
  unfold Obligations.ByteResultTables
  exact fun p ack t => ⟨byteResult_eq p ack t, readResult_eq p t⟩

/-- Settles O25: `TO` is cleared before `WriteByteCore` runs, so it tells of this byte's nine waits alone. What the core
leaves is named `w`, so that no step of the proof computes the byte. -/
theorem writeByteCompletes : Obligations.WriteByteCompletes := by
  unfold Obligations.WriteByteCompletes
  intro d s hactive
  obtain ⟨es, hsent, hrun⟩ := writeByteCore_runs d (clearTimeout s)
  have hkeep := (clearTimeout_carries s).trans hrun.carries
  have hlatch := writeByteCore_latch d (clearTimeout s)
  rw [exec_writeByte d hactive]
  generalize writeByteCore d (clearTimeout s) = w at *
  exact ⟨_, es, w.ack, w.timedOut, rfl, hsent, hrun.history, byteOfLevel_eq _, hrun.timedOut, rfl, hlatch,
    hkeep.ph.trans hactive, hkeep.delayUs, hkeep.sameBuffer, hkeep.sameSetting⟩

/-- Settles O26: as for a written byte, with the eight samples in `RXDATA`; SDA's latch depends on the acknowledgment. -/
theorem readByteCompletes : Obligations.ReadByteCompletes := by
  unfold Obligations.ReadByteCompletes
  intro a s hactive
  obtain ⟨es, hread, hrun⟩ := readByteCore_runs a (clearTimeout s)
  have hkeep := (clearTimeout_carries s).trans hrun.carries
  have hlatch := readByteCore_latch a (clearTimeout s)
  rw [exec_readByte a hactive]
  generalize readByteCore a (clearTimeout s) = r at *
  refine ⟨_, es, r.value, r.timedOut, rfl, hread, hrun.history, rfl, hrun.timedOut, rfl, hlatch.trans ?_,
    hkeep.ph.trans hactive, hkeep.delayUs, hkeep.sameBuffer, hkeep.sameSetting⟩
  cases a with
  | ack => rfl
  | nack => rfl

end Sys2Proof.Machine
end

section
/-! PROOFS. The conditions (42_framing.md R180 to R182, R185 to R187): START, RSTART and STOP where they are legal. -/

namespace Sys2Proof.Machine

/-- Settles O20: StartSeq has no wait, so nothing sets `TO` after it is cleared. -/
theorem startCompletes : Obligations.StartCompletes := by
  unfold Obligations.StartCompletes
  intro s hidle
  have hrun := startSeq_runs (clearTimeout s)
  have hkeep := (clearTimeout_carries s).trans hrun.carries
  have hlatch := startSeq_latch (clearTimeout s)
  exact ⟨_, exec_start hidle, hrun.history, hlatch, rfl, rfl, hrun.timedOut, hkeep.rxdata, hkeep.delayUs,
    hkeep.sameBuffer, hkeep.sameSetting⟩

/-- Settles O21: `TO` is cleared before RStartSeq runs, so it tells of its one wait. What the sequence leaves is named
`r`, so that no step of the proof computes it. -/
theorem rstartCompletes : Obligations.RstartCompletes := by
  unfold Obligations.RstartCompletes
  intro s hactive
  obtain ⟨w, hwait, hrun⟩ := rstartSeq_runs (clearTimeout s)
  have hkeep := (clearTimeout_carries s).trans hrun.carries
  have hlatch := rstartSeq_latch (clearTimeout s)
  rw [exec_rstart hactive]
  generalize rstartSeq (clearTimeout s) = r at *
  exact ⟨_, w, r.1, rfl, hwait, hrun.history, hrun.timedOut, readResult_eq _ _, hlatch,
    hkeep.ph.trans hactive, hkeep.rxdata, hkeep.delayUs, hkeep.sameBuffer, hkeep.sameSetting⟩

/-- Settles O22: as for a repeated start; the phase is written after the sequence, whatever its wait did. -/
theorem stopCompletes : Obligations.StopCompletes := by
  unfold Obligations.StopCompletes
  intro s hactive
  obtain ⟨w, hwait, hrun⟩ := stopSeq_runs (clearTimeout s)
  have hkeep := (clearTimeout_carries s).trans hrun.carries
  have hlatch := stopSeq_latch (clearTimeout s)
  rw [exec_stop hactive]
  generalize stopSeq (clearTimeout s) = r at *
  exact ⟨_, w, r.1, rfl, hwait, hrun.history, hrun.timedOut, readResult_eq _ _, hlatch, rfl,
    hkeep.rxdata, hkeep.delayUs, hkeep.sameBuffer, hkeep.sameSetting⟩

end Sys2Proof.Machine
end

section
/-! PROOFS. The end of a transaction (42_framing.md R188, R192, R194): the message after a failed address byte, and the
lines after a stop. -/

namespace Sys2Proof.Machine

/-- R188: the first failure stays. -/
theorem andThen_of_ne_ok {r : ResultCode} (h : r ≠ .ok) (next : ResultCode) : r.andThen next = r := by
  cases r with
  | ok => exact absurd rfl h
  | nack => rfl
  | timeout => rfl
  | illegal => rfl

/-- R194: once the address byte's result is not `OK`, no payload byte is read. -/
theorem readPayload_failed (n : Nat) {r : ResultCode} (s : State) (h : r ≠ .ok) : readPayload n r s = (r, s) := by
  cases r with
  | ok => exact absurd rfl h
  | nack => rfl
  | timeout => rfl
  | illegal => rfl

/-- R190, R194: a write message whose address byte fails is the start, that byte and the stop. -/
theorem exec_writeMsg_failed {addr : Addr7} {len : Half} {s : State} (hl : LegalNow (.writeMsg addr len) s)
    (h : (openMessage addr .write (clearTimeout s)).1 ≠ .ok) :
    exec (.writeMsg addr len) s =
      .next (closeMessage (openMessage addr .write (clearTimeout s)).1
        (openMessage addr .write (clearTimeout s)).2) := by
  rw [exec_writeMsg addr len hl, sendPayload_failed _ _ _ h, answerOf]

/-- R191, R194: and so is a read message. -/
theorem exec_readMsg_failed {addr : Addr7} {len : Half} {s : State} (hl : LegalNow (.readMsg addr len) s)
    (h : (openMessage addr .read (clearTimeout s)).1 ≠ .ok) :
    exec (.readMsg addr len) s =
      .next (closeMessage (openMessage addr .read (clearTimeout s)).1
        (openMessage addr .read (clearTimeout s)).2) := by
  rw [exec_readMsg addr len hl, readPayload_failed _ _ h]

/-- A message answered by the start, a failed address byte and the stop: its events, the result, and the buffer left
alone. -/
theorem failedAddress_outcome {addr : Addr7} {rw : Direction} {s : State} {a : Answer}
    (ha : a = .next (closeMessage (openMessage addr rw (clearTimeout s)).1 (openMessage addr rw (clearTimeout s)).2))
    (h : (openMessage addr rw (clearTimeout s)).1 ≠ .ok) :
    ∃ t ack ea ta w tw, a = .next t ∧
      ByteSent s.delayUs s.cfg.stretchPolls (addressByte addr rw) ack ea ta ∧
      IsWait s.cfg.stretchPolls w tw ∧
      t.history = s.history ++ startEvents s.delayUs ++ ea ++ stopEvents s.delayUs w ∧
      t.rc = byteResult s.cfg.timeoutIsError ack ta ∧ SameBuffer s t := by
  obtain ⟨ea, ack, ta, hsent, hres, hopen⟩ := openMessage_runs addr rw (clearTimeout s)
  generalize openMessage addr rw (clearTimeout s) = o at *
  obtain ⟨w, tw, hwait, hrc, -, hclose⟩ := closeMessage_runs o.1 o.2
  rw [hopen.cfg] at hwait
  have hhist := (hopen.trans hclose).history
  rw [hopen.delayUs, ← List.append_assoc, ← List.append_assoc] at hhist
  have hkeep := ((clearTimeout_carries s).trans hopen.carries).trans hclose.carries
  exact ⟨_, ack, ea, ta, w, tw, ha, hsent, hwait, hhist, hrc.trans ((andThen_of_ne_ok h _).trans hres),
    hkeep.sameBuffer⟩

/-- Settles O33: with the address byte failed both messages close at once, so no length and no buffer matters. -/
theorem failedAddressSendsNoPayload : Obligations.FailedAddressSendsNoPayload := by
  unfold Obligations.FailedAddressSendsNoPayload
  exact fun addr len s hidle hlen =>
    ⟨fun h => failedAddress_outcome (exec_writeMsg_failed ⟨hidle, hlen⟩ h) h,
      fun h => failedAddress_outcome (exec_readMsg_failed ⟨hidle, hlen⟩ h) h⟩

/-- R192: a message closed with any result leaves both lines released. -/
theorem closeMessage_released (r : ResultCode) (s : State) : (closeMessage r s).Released := by
  obtain ⟨w, tw, -, -, hlatch, -⟩ := closeMessage_runs r s
  exact hlatch

/-- A message that answers a next state closed there. -/
theorem exists_closeMessage_of_answerOf {p : Progress} {t : State} (h : answerOf p = .next t) :
    ∃ r s, t = closeMessage r s := by
  cases p with
  | running r s =>
    simp only [answerOf, Host.Outcome.next.injEq] at h
    exact ⟨r, s, h.symm⟩
  | stopped f => simp [answerOf] at h

/-- R192, with R28: a released line that is not held is high. -/
theorem State.Released.level_of_not_held {t : State} (h : t.Released)
    (hext : t.bus.ext = { sda := false, scl := false }) (l : Line) : t.bus.level l = true := by
  have hdir : (t.bus.latch.get l).dir = false := by rw [h]; cases l <;> rfl
  rw [Bus.level_of_input hdir, hext]
  cases l <;> rfl

/-- R192: STOP and both messages end in a state with the lines released. -/
theorem exec_released {i : Instr} {s t : State}
    (hi : i = .stop ∨ (∃ addr len, i = .writeMsg addr len) ∨ (∃ addr len, i = .readMsg addr len))
    (hl : LegalNow i s) (h : exec i s = .next t) : t.Released := by
  obtain rfl | ⟨addr, len, rfl⟩ | ⟨addr, len, rfl⟩ := hi
  · obtain ⟨u, w, tw, hu, -, -, -, -, hrel, -⟩ := stopCompletes s hl
    rw [h, Host.Outcome.next.injEq] at hu
    exact hu ▸ hrel
  · rw [exec_writeMsg addr len hl] at h
    obtain ⟨r, u, rfl⟩ := exists_closeMessage_of_answerOf h
    exact closeMessage_released r u
  · rw [exec_readMsg addr len hl, Host.Outcome.next.injEq] at h
    exact h ▸ closeMessage_released _ _

/-- Settles O35: each of the three ends in StopSeq, and a released line is high where nothing holds it. -/
theorem linesReleasedAfterStop : Obligations.LinesReleasedAfterStop := by
  unfold Obligations.LinesReleasedAfterStop
  intro i s t hi hl h
  have hrel := exec_released hi hl h
  exact ⟨hrel, fun hext => ⟨hrel.level_of_not_held hext .sda, hrel.level_of_not_held hext .scl⟩⟩

end Sys2Proof.Machine
end

section
/-! PROOFS. How many events a command makes (70_reset_and_hazards.md R272): the lengths of the sequences of Safety, then
of the two payload loops, then of every command. -/

namespace Sys2Proof.Machine

/-- A wait takes at least one sample and at most the budget (R140). -/
theorem IsWait.length_bounds {n : Nat} {w : List Event} {to' : Bool} (hn : 0 < n) (h : IsWait n w to') :
    1 ≤ w.length ∧ w.length ≤ n := by
  obtain ⟨k, hk, rfl, -⟩ | ⟨rfl, -⟩ := h
  · simpa using hk
  · simpa [Nat.succ_le_iff] using hn

@[simp] theorem lowEvents_length (l : Line) : (lowEvents l).length = 2 := rfl

@[simp] theorem releaseEvents_length (l : Line) : (releaseEvents l).length = 2 := rfl

@[simp] theorem sdaEvents_length (b : Bool) : (sdaEvents b).length = 2 := by
  cases b <;> rfl

@[simp] theorem raiseEvents_length (us : Half) (w : List Event) : (raiseEvents us w).length = 3 + w.length := by
  simp +arith [raiseEvents]

@[simp] theorem writtenBit_length (us : Half) (b : Bool) (w : List Event) :
    (writtenBit us b w).length = 9 + w.length := by
  simp +arith [writtenBit]

@[simp] theorem ackSlot_length (us : Half) (ack : Bool) (w : List Event) :
    (ackSlot us ack w).length = 11 + w.length := by
  simp +arith [ackSlot]

@[simp] theorem readBit_length (us : Half) (b : Bool) (w : List Event) :
    (readBit us b w).length = 7 + w.length := by
  simp +arith [readBit]

@[simp] theorem ninthClock_length (us : Half) (a : Bool) (w : List Event) :
    (ninthClock us a w).length = 10 + w.length := by
  simp +arith [ninthClock]

@[simp] theorem startEvents_length (us : Half) : (startEvents us).length = 5 := rfl

@[simp] theorem rstartEvents_length (us : Half) (w : List Event) :
    (rstartEvents us w).length = 11 + w.length := by
  simp +arith [rstartEvents]

@[simp] theorem stopEvents_length (us : Half) (w : List Event) : (stopEvents us w).length = 9 + w.length := by
  simp +arith [stopEvents]

section
variable {us : Half} {polls : Nat} (hpolls : 0 < polls)
include hpolls

theorem BitsSent.length_bounds {d : Byte} {n : Nat} {es : List Event} {to' : Bool}
    (h : BitsSent us polls d n es to') : n * 10 ≤ es.length ∧ es.length ≤ n * (9 + polls) := by
  induction n generalizing es to' with
  | zero =>
    obtain ⟨rfl, -⟩ := h
    simp
  | succ n ih =>
    obtain ⟨w, tw, rest, tr, hw, hrest, rfl, -⟩ := h
    have hwait := hw.length_bounds hpolls
    have hbits := ih hrest
    rw [List.length_append, writtenBit_length, Nat.succ_mul n, Nat.succ_mul n]
    omega

/-- R147: a written byte has nine waits. -/
theorem ByteSent.length_bounds {d : Byte} {ack : Bool} {es : List Event} {to' : Bool}
    (h : ByteSent us polls d ack es to') : 92 ≤ es.length ∧ es.length ≤ 83 + 9 * polls := by
  obtain ⟨bits, tb, w, tw, hb, hw, rfl, -⟩ := h
  have hwait := hw.length_bounds hpolls
  have hbits := hb.length_bounds hpolls
  rw [List.length_append, ackSlot_length]
  omega

theorem BitsRead.length_bounds {v : Byte} {n : Nat} {es : List Event} {to' : Bool}
    (h : BitsRead us polls v n es to') : n * 8 ≤ es.length ∧ es.length ≤ n * (7 + polls) := by
  induction n generalizing es to' with
  | zero =>
    obtain ⟨rfl, -⟩ := h
    simp
  | succ n ih =>
    obtain ⟨w, tw, rest, tr, hw, hrest, rfl, -⟩ := h
    have hwait := hw.length_bounds hpolls
    have hbits := ih hrest
    rw [List.length_append, readBit_length, Nat.succ_mul n, Nat.succ_mul n]
    omega

/-- R147: and so has a read byte. -/
theorem ByteRead.length_bounds {a : Ack} {v : Byte} {es : List Event} {to' : Bool}
    (h : ByteRead us polls a v es to') : 77 ≤ es.length ∧ es.length ≤ 68 + 9 * polls := by
  obtain ⟨bits, tb, w, tw, hb, hw, rfl, -⟩ := h
  have hwait := hw.length_bounds hpolls
  have hbits := hb.length_bounds hpolls
  rw [List.length_append, List.length_append, ninthClock_length, releaseEvents_length]
  omega

theorem PayloadRead.length_le {p : Bool} {vs : List Byte} {es : List Event} {r : ResultCode} {to' : Bool}
    (h : PayloadRead us polls p vs es r to') : es.length ≤ vs.length * (68 + 9 * polls) := by
  induction vs generalizing es r to' with
  | nil =>
    obtain ⟨rfl, -, -⟩ := h
    simp
  | cons v vs ih =>
    obtain ⟨e, te, rest, r', tr, he, hrest, rfl, -, -⟩ := h
    have hbyte := he.length_bounds hpolls
    have hpayload := ih hrest
    rw [List.length_append, List.length_cons, Nat.succ_mul vs.length]
    omega

end

/-- From `s` to `t` the history gains at least `lo` and at most `hi` events. -/
structure AddsEvents (lo hi : Nat) (s t : State) : Prop where
  least : s.history.length + lo ≤ t.history.length
  most : t.history.length ≤ s.history.length + hi

theorem AddsEvents.refl (s : State) : AddsEvents 0 0 s s := ⟨Nat.le_refl _, Nat.le_refl _⟩

theorem AddsEvents.trans {lo hi lo' hi' : Nat} {a b c : State} (h : AddsEvents lo hi a b)
    (k : AddsEvents lo' hi' b c) : AddsEvents (lo + lo') (hi + hi') a c := by
  have h1 := h.least
  have h2 := h.most
  have k1 := k.least
  have k2 := k.most
  constructor <;> omega

theorem AddsEvents.mono {lo hi lo' hi' : Nat} {s t : State} (h : AddsEvents lo hi s t) (hlo : lo' ≤ lo)
    (hhi : hi ≤ hi') : AddsEvents lo' hi' s t :=
  ⟨(Nat.add_le_add_left hlo _).trans h.least, h.most.trans (Nat.add_le_add_left hhi _)⟩

theorem AddsEvents.of_history {lo hi : Nat} {s t : State} {es : List Event} (ht : t.history = s.history ++ es)
    (hes : lo ≤ es.length ∧ es.length ≤ hi) : AddsEvents lo hi s t := by
  obtain ⟨hlo, hhi⟩ := hes
  constructor <;> rw [ht, List.length_append] <;> omega

theorem AddsEvents.of_clearTimeout {lo hi : Nat} {s t : State} (h : AddsEvents lo hi (clearTimeout s) t) :
    AddsEvents lo hi s t :=
  ⟨h.least, h.most⟩

theorem openMessage_addsEvents (addr : Addr7) (rw : Direction) {s : State} (hpolls : 0 < s.cfg.stretchPolls) :
    AddsEvents 97 (5 + (83 + 9 * s.cfg.stretchPolls)) s (openMessage addr rw s).2 := by
  obtain ⟨e, ack, te, he, -, hrun⟩ := openMessage_runs addr rw s
  have hbyte := he.length_bounds hpolls
  refine .of_history hrun.history ?_
  rw [List.length_append, startEvents_length]
  omega

/-- R190: a payload that ends in a result has sent at most its length in bytes. -/
theorem sendPayload_addsEvents {n i : Nat} {r r' : ResultCode} {s t : State} (hpolls : 0 < s.cfg.stretchPolls)
    (h : sendPayload n i r s = .running r' t) : AddsEvents 0 (n * (83 + 9 * s.cfg.stretchPolls)) s t := by
  induction n generalizing i r s with
  | zero =>
    simp only [sendPayload, Progress.running.injEq] at h
    exact h.2 ▸ (AddsEvents.refl s).mono (Nat.le_refl _) (Nat.zero_le _)
  | succ n ih =>
    by_cases hok : r = .ok
    · subst hok
      simp only [sendPayload] at h
      split at h
      · simp at h
      · next d _ =>
        obtain ⟨e, he, hrun⟩ := writeByteCore_runs d s
        have hbyte : AddsEvents 92 _ s _ := .of_history hrun.history (he.length_bounds hpolls)
        have hcfg := hrun.cfg
        generalize writeByteCore d s = b at *
        have hrest := ih (by rwa [hcfg]) h
        rw [hcfg] at hrest
        exact (hbyte.trans hrest).mono (Nat.zero_le _) (by rw [Nat.succ_mul n]; omega)
    · rw [sendPayload_failed _ _ _ hok, Progress.running.injEq] at h
      exact h.2 ▸ (AddsEvents.refl s).mono (Nat.le_refl _) (Nat.zero_le _)

/-- R191: the payload of a read message is nothing, or as many bytes as its length says. -/
theorem readPayload_addsEvents (n : Nat) (r : ResultCode) {s : State} (hpolls : 0 < s.cfg.stretchPolls) :
    AddsEvents 0 (n * (68 + 9 * s.cfg.stretchPolls)) s (readPayload n r s).2 := by
  by_cases hok : r = .ok
  · subst hok
    obtain ⟨vs, es, r', t', rfl, hread, -, -, hrun⟩ := recvPayload_runs n 0 .ok s
    exact .of_history hrun.history ⟨Nat.zero_le _, hread.length_le hpolls⟩
  · rw [readPayload_failed n s hok]
    exact (AddsEvents.refl s).mono (Nat.le_refl _) (Nat.zero_le _)

theorem closeMessage_addsEvents (r : ResultCode) {s : State} (hpolls : 0 < s.cfg.stretchPolls) :
    AddsEvents 10 (9 + s.cfg.stretchPolls) s (closeMessage r s) := by
  obtain ⟨w, tw, hw, -, -, hrun⟩ := closeMessage_runs r s
  have hwait := hw.length_bounds hpolls
  refine .of_history hrun.history ?_
  rw [stopEvents_length]
  omega

/-- What a command answers is what it was shown to answer, so it adds the events of that. -/
theorem addsEvents_of_answer {lo hi : Nat} {i : Instr} {s t u : State} {es : List Event} (h : exec i s = .next t)
    (hu : exec i s = .next u) (hhist : u.history = s.history ++ es) (hes : lo ≤ es.length ∧ es.length ≤ hi) :
    AddsEvents lo hi s t := by
  rw [h, Host.Outcome.next.injEq] at hu
  exact hu ▸ .of_history hhist hes

theorem exec_writeMsg_addsEvents {addr : Addr7} {len : Half} {s t : State} (hpolls : 0 < s.cfg.stretchPolls)
    (hl : LegalNow (.writeMsg addr len) s) (h : exec (.writeMsg addr len) s = .next t) :
    AddsEvents 107 (mostEvents s.cfg.stretchPolls (.writeMsg addr len)) s t := by
  rw [exec_writeMsg addr len hl] at h
  have hopen := openMessage_addsEvents addr .write (s := clearTimeout s) hpolls
  have hcfg := (openMessage_advances addr .write (clearTimeout s)).cfg
  generalize openMessage addr .write (clearTimeout s) = o at *
  cases hs : sendPayload len.toNat 0 o.1 o.2 with
  | running r u =>
    rw [hs, answerOf, Host.Outcome.next.injEq] at h
    have hucfg := (sendPayload_advances _ _ _ _ hs).cfg.trans hcfg
    have hpayload := sendPayload_addsEvents (by rwa [hcfg]) hs
    have hclose := closeMessage_addsEvents r (s := u) (by rwa [hucfg])
    rw [hcfg] at hpayload
    rw [hucfg, h] at hclose
    refine ((hopen.trans hpayload).trans hclose).of_clearTimeout.mono (Nat.le_refl _) ?_
    simp only [mostEvents, clearTimeout_cfg, Nat.succ_mul len.toNat]
    omega
  | stopped f =>
    rw [hs, answerOf] at h
    nomatch h

theorem exec_readMsg_addsEvents {addr : Addr7} {len : Half} {s t : State} (hpolls : 0 < s.cfg.stretchPolls)
    (hl : LegalNow (.readMsg addr len) s) (h : exec (.readMsg addr len) s = .next t) :
    AddsEvents 107 (mostEvents s.cfg.stretchPolls (.readMsg addr len)) s t := by
  rw [exec_readMsg addr len hl, Host.Outcome.next.injEq] at h
  have hopen := openMessage_addsEvents addr .read (s := clearTimeout s) hpolls
  have hcfg := (openMessage_advances addr .read (clearTimeout s)).cfg
  generalize openMessage addr .read (clearTimeout s) = o at *
  have hpayload := readPayload_addsEvents len.toNat o.1 (s := o.2) (by rwa [hcfg])
  have hpcfg := (readPayload_advances len.toNat o.1 o.2 (by rw [hcfg]; exact hl.2)).cfg.trans hcfg
  generalize readPayload len.toNat o.1 o.2 = p at *
  have hclose := closeMessage_addsEvents p.1 (s := p.2) (by rwa [hpcfg])
  rw [hcfg] at hpayload
  rw [hpcfg, h] at hclose
  refine ((hopen.trans hpayload).trans hclose).of_clearTimeout.mono (Nat.le_refl _) ?_
  simp only [mostEvents, clearTimeout_cfg]
  omega

/-- R272, the table: the events of a legal command. -/
theorem exec_legal_addsEvents {i : Instr} {s t : State} (hpolls : 0 < s.cfg.stretchPolls) (hl : LegalNow i s)
    (h : exec i s = .next t) : AddsEvents (fewestEvents i) (mostEvents s.cfg.stretchPolls i) s t := by
  cases i with
  | driveLow l =>
    have hrun := driveLow_runs l (clearTimeout s)
    exact addsEvents_of_answer h (exec_driveLow l s) hrun.history ⟨Nat.le_refl 2, Nat.le_refl 2⟩
  | release l =>
    have hrun := release_runs l (clearTimeout s)
    exact addsEvents_of_answer h (exec_release l s) hrun.history ⟨Nat.le_refl 2, Nat.le_refl 2⟩
  | sample l =>
    obtain ⟨u, v, hu, hhist, -⟩ := sampleCompletes l s
    exact addsEvents_of_answer h hu hhist ⟨Nat.le_refl 1, Nat.le_refl 1⟩
  | halfDelay =>
    obtain ⟨u, hu, hhist, -⟩ := halfDelayCompletes s
    exact addsEvents_of_answer h hu hhist ⟨Nat.le_refl 1, Nat.le_refl 1⟩
  | setDelay us =>
    exact addsEvents_of_answer h (exec_setDelay us s) (List.append_nil _).symm ⟨Nat.le_refl 0, Nat.le_refl 0⟩
  | start =>
    obtain ⟨u, hu, hhist, -⟩ := startCompletes s hl
    exact addsEvents_of_answer h hu hhist ⟨Nat.le_refl 5, Nat.le_refl 5⟩
  | rstart =>
    obtain ⟨u, w, tw, hu, hw, hhist, -⟩ := rstartCompletes s hl
    have hwait := hw.length_bounds hpolls
    refine addsEvents_of_answer h hu hhist ?_
    rw [rstartEvents_length, fewestEvents, mostEvents]
    omega
  | stop =>
    obtain ⟨u, w, tw, hu, hw, hhist, -⟩ := stopCompletes s hl
    have hwait := hw.length_bounds hpolls
    refine addsEvents_of_answer h hu hhist ?_
    rw [stopEvents_length, fewestEvents, mostEvents]
    omega
  | writeByte d =>
    obtain ⟨u, es, ack, to', hu, hsent, hhist, -⟩ := writeByteCompletes d s hl
    exact addsEvents_of_answer h hu hhist (hsent.length_bounds hpolls)
  | readByte a =>
    obtain ⟨u, es, v, to', hu, hread, hhist, -⟩ := readByteCompletes a s hl
    exact addsEvents_of_answer h hu hhist (hread.length_bounds hpolls)
  | writeMsg addr len => exact exec_writeMsg_addsEvents hpolls hl h
  | readMsg addr len => exact exec_readMsg_addsEvents hpolls hl h

/-- Settles O38: a legal command adds the events of its sequences, each wait between one sample and the budget; what is
rejected adds none. -/
theorem eventBounds : Obligations.EventBounds := by
  unfold Obligations.EventBounds
  refine fun i s t hpolls h => ⟨fun hl => ?_, fun hl => ?_, fun w cause hw => ?_⟩
  · obtain ⟨hleast, hmost⟩ := exec_legal_addsEvents hpolls hl h
    exact ⟨hleast, hmost⟩
  · rw [exec_illegal hl, Host.Outcome.next.injEq] at h
    exact h ▸ reject_history s
  · have hne : ∀ j, decode w ≠ .command j := fun j hj => by
      rw [hw] at hj
      nomatch hj
    exact ⟨reject s, command_of_ne_command hne s, reject_history s⟩

end Sys2Proof.Machine
end

section
/-! PROOFS. Construction (70_reset_and_hazards.md R250): what the six micro-steps of `Reset()` leave, whatever was before
them. -/

namespace Sys2Proof.Machine

/-- R250: the six events of reset. -/
theorem Bus.resetSeq_history (b : Bus) :
    b.resetSeq.history = b.history ++ ([.write .sda .dir true, .write .scl .dir true, .write .scl .dir false,
      .write .scl .out true, .write .sda .dir false, .write .sda .out true] : List Event) := by
  simp only [Bus.resetSeq, Bus.release_history, Bus.gpioWrite_history, releaseEvents,
    List.append_assoc, List.cons_append, List.nil_append]

/-- R250: reset ends with both lines released, since `Release` writes both latch bits of its line. -/
theorem Bus.resetSeq_latch (b : Bus) :
    b.resetSeq.latch = { sda := { dir := false, out := true }, scl := { dir := false, out := true } } := by
  rw [Bus.resetSeq, Bus.release_latch, Bus.release_latch]
  rfl

/-- R47: the status word after construction. -/
theorem State.construct_status (c : Params) (b : Bus) : (State.construct c b).status = 0#32 := by
  show (0#28 : BitVec 28) ++ Phase.idle.toBit ++ bitOfLevel false ++ ResultCode.ok.toBits = 0#32
  decide

/-- Settles O42: the lines are as the six micro-steps leave them, and no register depends on the lines. -/
theorem constructionLeaves : Obligations.ConstructionLeaves := by
  unfold Obligations.ConstructionLeaves
  intro c dir out ext plan s
  have hhist := (Bus.preReset dir out ext plan).resetSeq_history
  have hlatch := (Bus.preReset dir out ext plan).resetSeq_latch
  exact ⟨hhist, hlatch, State.construct_status _ _, rfl, rfl, rfl, fun _ => rfl⟩

end Sys2Proof.Machine
end

section
/-! PROOFS. The formats (30_encoding.md R82 to R88): a word is the word of its fields, so that decoding and encoding
invert each other. -/

namespace Sys2Proof

theorem bitField_eq_of_getLsbD {w : Word} {lo n : Nat} {x : BitVec n}
    (h : ∀ i < n, w.getLsbD (lo + i) = x.getLsbD i) : bitField w lo n = x :=
  BitVec.eq_of_getLsbD_eq fun i hi => by rw [bitField_getLsbD, decide_eq_true hi, Bool.true_and, h i hi]

/-- Two fields of which one begins where the other ends are one field. -/
theorem bitField_append {w : Word} {hi lo m n : Nat} (h : hi = lo + n) :
    bitField w hi m ++ bitField w lo n = bitField w lo (m + n) :=
  BitVec.extractLsb'_append_extractLsb'_eq_extractLsb' h

theorem bitField_whole (w : Word) : bitField w 0 32 = w := BitVec.extractLsb'_eq_self

/-- R83. -/
theorem eq_formatN_iff (w : Word) (opc : BitVec 4) :
    w = formatN opc ↔ bitField w 28 4 = opc ∧ bitField w 24 4 = 0#4 ∧ bitField w 0 24 = 0#24 := by
  constructor
  · rintro rfl
    refine ⟨?_, ?_, ?_⟩
    all_goals
      refine bitField_eq_of_getLsbD fun i hi => ?_
      grind [formatN_getLsbD]
  · rintro ⟨rfl, hz, h⟩
    rw [formatN, show 0#28 = 0#4 ++ 0#24 from rfl, ← hz, ← h, bitField_append (show 24 = 0 + 24 from rfl),
      bitField_append (show 28 = 0 + 28 from rfl), bitField_whole]

/-- R84, R86. -/
theorem eq_formatBit_iff (w : Word) (opc : BitVec 4) (b : BitVec 1) :
    w = formatBit opc b ↔
      bitField w 28 4 = opc ∧ bitField w 24 4 = 0#4 ∧ bitField w 1 23 = 0#23 ∧ bitField w 0 1 = b := by
  constructor
  · rintro rfl
    refine ⟨?_, ?_, ?_, ?_⟩
    all_goals
      refine bitField_eq_of_getLsbD fun i hi => ?_
      grind [formatBit_getLsbD]
  · rintro ⟨rfl, hz, h, rfl⟩
    rw [formatBit, show 0#27 = 0#4 ++ 0#23 from rfl, ← hz, ← h, bitField_append (show 24 = 1 + 23 from rfl),
      bitField_append (show 28 = 1 + 27 from rfl), bitField_append (show 1 = 0 + 1 from rfl), bitField_whole]

/-- R85. -/
theorem eq_formatB_iff (w : Word) (opc : BitVec 4) (d : Byte) :
    w = formatB opc d ↔
      bitField w 28 4 = opc ∧ bitField w 24 4 = 0#4 ∧ bitField w 8 16 = 0#16 ∧ bitField w 0 8 = d := by
  constructor
  · rintro rfl
    refine ⟨?_, ?_, ?_, ?_⟩
    all_goals
      refine bitField_eq_of_getLsbD fun i hi => ?_
      grind [formatB_getLsbD]
  · rintro ⟨rfl, hz, h, rfl⟩
    rw [formatB, show 0#20 = 0#4 ++ 0#16 from rfl, ← hz, ← h, bitField_append (show 24 = 8 + 16 from rfl),
      bitField_append (show 28 = 8 + 20 from rfl), bitField_append (show 8 = 0 + 8 from rfl), bitField_whole]

/-- R87. -/
theorem eq_formatI_iff (w : Word) (opc : BitVec 4) (imm : Half) :
    w = formatI opc imm ↔
      bitField w 28 4 = opc ∧ bitField w 24 4 = 0#4 ∧ bitField w 8 16 = imm ∧ bitField w 0 8 = 0#8 := by
  constructor
  · rintro rfl
    refine ⟨?_, ?_, ?_, ?_⟩
    all_goals
      refine bitField_eq_of_getLsbD fun i hi => ?_
      grind [formatI_getLsbD]
  · rintro ⟨rfl, hz, rfl, h⟩
    rw [formatI, ← hz, ← h, bitField_append (show 28 = 24 + 4 from rfl),
      bitField_append (show 24 = 8 + 16 from rfl), bitField_append (show 8 = 0 + 8 from rfl), bitField_whole]

/-- R88. -/
theorem eq_formatM_iff (w : Word) (opc : BitVec 4) (len : Half) (addr : Addr7) :
    w = formatM opc len addr ↔
      bitField w 28 4 = opc ∧ bitField w 24 4 = 0#4 ∧ bitField w 8 16 = len ∧ bitField w 7 1 = 0#1 ∧
        bitField w 0 7 = addr := by
  constructor
  · rintro rfl
    refine ⟨?_, ?_, ?_, ?_, ?_⟩
    all_goals
      refine bitField_eq_of_getLsbD fun i hi => ?_
      grind [formatM_getLsbD]
  · rintro ⟨rfl, hz, rfl, h, rfl⟩
    rw [formatM, ← hz, ← h, bitField_append (show 28 = 24 + 4 from rfl),
      bitField_append (show 24 = 8 + 16 from rfl), bitField_append (show 8 = 7 + 1 from rfl),
      bitField_append (show 7 = 0 + 7 from rfl), bitField_whole]

/-- R82, R94: each arm of the decoder reads the format its opcode has. -/
theorem decode_of_eq_encode {w : Word} {i : Instr} (h : w = encode i) : decode w = .command i := by
  cases i with
  | halfDelay | start | rstart | stop =>
    obtain ⟨ho, hz, hf⟩ := (eq_formatN_iff _ _).1 h
    simp [decode, whenZero, ho, hz, hf]
  | driveLow x | release x | sample x | readByte x =>
    obtain ⟨ho, hz, hf, hx⟩ := (eq_formatBit_iff _ _ _).1 h
    simp [decode, whenZero, ho, hz, hf, hx]
  | writeByte d =>
    obtain ⟨ho, hz, hf, hd⟩ := (eq_formatB_iff _ _ _).1 h
    simp [decode, whenZero, ho, hz, hf, hd]
  | setDelay us =>
    obtain ⟨ho, hz, hus, hf⟩ := (eq_formatI_iff _ _ _).1 h
    simp [decode, whenZero, ho, hz, hus, hf]
  | writeMsg addr len | readMsg addr len =>
    obtain ⟨ho, hz, hlen, hf, haddr⟩ := (eq_formatM_iff _ _ _ _).1 h
    simp [decode, whenZero, ho, hz, hlen, hf, haddr]

/-- R91, R94: the fields an arm tests and the fields it reads are together the whole word. -/
theorem eq_encode_of_decode {w : Word} {i : Instr} (h : decode w = .command i) : w = encode i := by
  have hz : bitField w 24 4 = 0#4 := by
    by_contra hne
    exact decode_ne_command_of_bits27_24 hne i h
  rw [decode, if_neg (not_not.2 hz)] at h
  split at h
  case h_13 => simp at h
  all_goals obtain ⟨hf, rfl⟩ := (whenZero_eq_command_iff _ _ _).1 h
  case h_4 ho | h_6 ho | h_7 ho | h_8 ho => exact (eq_formatN_iff _ _).2 ⟨ho, hz, hf⟩
  case h_1 ho | h_2 ho | h_3 ho =>
    exact (eq_formatBit_iff _ _ _).2 ⟨ho, hz, hf, (toBit_lineOfBit _).symm⟩
  case h_10 ho => exact (eq_formatBit_iff _ _ _).2 ⟨ho, hz, hf, (toBit_ackOfBit _).symm⟩
  case h_9 ho => exact (eq_formatB_iff _ _ _).2 ⟨ho, hz, hf, rfl⟩
  case h_5 ho => exact (eq_formatI_iff _ _ _).2 ⟨ho, hz, rfl, hf⟩
  case h_11 ho | h_12 ho => exact (eq_formatM_iff _ _ _ _).2 ⟨ho, hz, rfl, hf, rfl⟩

/-- Settles O1: the decoder reads back the fields each format puts in its word. -/
theorem decodeOfEncode : Obligations.DecodeOfEncode := by
  unfold Obligations.DecodeOfEncode
  exact fun i => decode_of_eq_encode rfl

/-- Settles O2: a word that decodes has no bit outside the fields the decoder tests and reads. -/
theorem encodeOfDecode : Obligations.EncodeOfDecode := by
  unfold Obligations.EncodeOfDecode
  exact fun w i h => (eq_encode_of_decode h).symm

/-- Settles O5: the twelve words are closed terms, so the decoder is run on each. -/
theorem specWordsDecode : Obligations.SpecWordsDecode := by
  unfold Obligations.SpecWordsDecode
  decide

end Sys2Proof
end

section
/-! PROOFS. The pseudo-instruction PROBE (30_encoding.md R99). -/

namespace Sys2Proof.Machine

theorem asmCommand_probe (ops : List (List Char)) :
    asmCommand "PROBE".toList ops = asmBits 7 (fun addr => .writeMsg addr 0#16) ops := by
  simp [asmCommand]

theorem asmCommand_writeMsg (ops : List (List Char)) :
    asmCommand "WRITE_MSG".toList ops = asmMsg .writeMsg ops := by
  simp [asmCommand]

theorem parseBits_zero : parseBits 16 "0".toList = some 0#16 := by decide

/-- Settles O6: both read the address in the same 7 bits, and the length text of the second is the number 0. -/
theorem probeIsEmptyWriteMsg : Obligations.ProbeIsEmptyWriteMsg := by
  unfold Obligations.ProbeIsEmptyWriteMsg
  intro addr
  rw [asmCommand_probe, asmCommand_writeMsg, asmBits, asmMsg, parseBits_zero]
  cases parseBits 7 addr with
  | none => rfl
  | some a => rfl

end Sys2Proof.Machine
end

section
/-! PROOFS. The line commands (40_line_and_timing.md R120, R121, R124, R125), the levels they leave and the contention
they can pass through (10_state.md R28, R29). -/

namespace Sys2Proof.Machine

/-- R28: a line driven high that is not held is high. -/
theorem Bus.level_of_drivenHigh {b : Bus} {l : Line} (hx : b.ext.get l = false)
    (ho : (b.latch.get l).out = true) : b.level l = true := by
  rw [Bus.level, levelAt_wiredAnd (fun hc => Bool.false_ne_true (hx.symm.trans hc.2.2)), wiredAnd,
    if_neg (by simp [ho]), hx]
  rfl

/-- Settles O11: the levels are the wired-AND, and a read comes after the gap. -/
theorem lineLevelTable : Obligations.LineLevelTable := by
  unfold Obligations.LineLevelTable
  exact fun b l => ⟨Bus.level_of_drivenLow, Bus.level_of_input, fun hx _ ho => Bus.level_of_drivenHigh hx ho, rfl⟩

/-- Settles O13: two writes drive the line low whatever its latch was. -/
theorem driveLowCompletes : Obligations.DriveLowCompletes := by
  unfold Obligations.DriveLowCompletes
  intro l s
  have hrun := driveLow_runs l (clearTimeout s)
  have hkeep := (clearTimeout_carries s).trans hrun.carries
  have hlatch := Bus.driveLow_latch l s.bus
  have hlow : (s.bus.driveLow l).latch.get l = { dir := true, out := false } := by rw [hlatch, PerLine.get_set_self]
  exact ⟨_, exec_driveLow l s, hrun.history, hlatch,
    Bus.level_of_drivenLow (congrArg Latch.dir hlow) (congrArg Latch.out hlow), rfl, hrun.timedOut, hkeep.ph,
    hkeep.rxdata, hkeep.delayUs, hkeep.sameBuffer, hkeep.sameSetting⟩

/-- Settles O14: two writes release the line, whose level is then the environment's. -/
theorem releaseCompletes : Obligations.ReleaseCompletes := by
  unfold Obligations.ReleaseCompletes
  intro l s
  have hrun := release_runs l (clearTimeout s)
  have hkeep := (clearTimeout_carries s).trans hrun.carries
  have hlatch := Bus.release_latch l s.bus
  have hfree : (s.bus.release l).latch.get l = { dir := false, out := true } := by rw [hlatch, PerLine.get_set_self]
  exact ⟨_, exec_release l s, hrun.history, hlatch, Bus.level_of_input (congrArg Latch.dir hfree), rfl,
    hrun.timedOut, hkeep.ph, hkeep.rxdata, hkeep.delayUs, hkeep.sameBuffer, hkeep.sameSetting⟩

/-- Settles O17: no micro-step, and one register written. -/
theorem setDelayCompletes : Obligations.SetDelayCompletes := by
  unfold Obligations.SetDelayCompletes
  exact fun us s => ⟨_, exec_setDelay us s, rfl, rfl, rfl, rfl, rfl, rfl, rfl, fun _ => rfl, rfl, rfl, rfl⟩

/-- Settles O18: HALF_DELAY waits what `DELAY.US` holds when it runs. -/
theorem setDelayGovernsLaterDelays : Obligations.SetDelayGovernsLaterDelays := by
  unfold Obligations.SetDelayGovernsLaterDelays
  intro us s
  obtain ⟨t, ht, hdelay, -, hbus, -⟩ := setDelayCompletes us s
  obtain ⟨u, hu, hhist, -⟩ := halfDelayCompletes t
  exact ⟨t, u, ht, hu, by rw [hhist, hdelay, State.history_eq, hbus]; rfl⟩

/-- R29: driving a line's direction where its output latch is 1 and it is held notes contention. -/
theorem Bus.gpioWrite_dir_contention {b : Bus} {l : Line} (ho : (b.latch.get l).out = true)
    (hx : b.gap.ext.get l = true) : (b.gpioWrite l .dir true).contention = true := by
  refine Bus.record_noted _ _ ((clash_iff (b.gpioWrite l .dir true).wires).2 ⟨l, ?_, ?_, hx⟩)
  · rw [Bus.wires, Bus.gpioWrite_latch_get_self]; rfl
  · rw [Bus.wires, Bus.gpioWrite_latch_get_self]; exact ho

/-- Settles O19: after the first of the two writes the line is driven high and held low. -/
theorem driveLowAgainstHoldIsContention : Obligations.DriveLowAgainstHoldIsContention := by
  unfold Obligations.DriveLowAgainstHoldIsContention
  intro l s hlatch hheld hplan
  have hext := (Bus.gap_ext_of_plan (b := s.bus) (n := 0) hplan).1
  have hfirst := Bus.gpioWrite_dir_contention (congrArg Latch.out hlatch) (by rw [hext]; exact hheld)
  exact ⟨_, exec_driveLow l s, (Bus.gpioWrite_grows l .out false _).contention hfirst⟩

end Sys2Proof.Machine
end

section
/-! PROOFS. A stop while SCL is held low (42_framing.md R187): the wait takes all its samples and times out. -/

namespace Sys2Proof.Machine

/-- R140: with SCL released by the engine and held by the environment over its samples, a wait times out. -/
theorem waitSclHighFor_held {x : PerLine Bool} {p : List (List (PerLine Bool))} (n : Nat) {s : State}
    (h : s.bus.Follows x (List.replicate n [] ++ p)) (hx : x.scl = true) (hl : s.bus.latch.scl.dir = false) :
    (waitSclHighFor n s).1 = true := by
  induction n generalizing s with
  | zero => rfl
  | succ n ih =>
    have hv : (sample .scl s).1 = false := by
      rw [sample_released (l := .scl) h hl]
      simp [lastHold, hx]
    rw [waitSclHighFor, if_neg (by rw [hv]; decide)]
    exact ih (sample_follows .scl h) hl

theorem raiseScl_held {x : PerLine Bool} {p : List (List (PerLine Bool))} {s : State}
    (h : s.bus.Follows x ([] :: [] :: (List.replicate s.cfg.stretchPolls [] ++ p))) (hx : x.scl = true) :
    (raiseScl s).1 = true :=
  waitSclHighFor_held s.cfg.stretchPolls (release_follows .scl h) hx (by simp [release, PerLine.set])

/-- Vectors S6 and S7: the stop's one wait times out. -/
theorem stopSeq_held {s : State} (h : s.SclHeldFor (9 + s.cfg.stretchPolls)) : (stopSeq s).1 = true := by
  have hfollows : s.bus.Follows { sda := false, scl := true }
      (List.replicate 5 [] ++ (List.replicate s.cfg.stretchPolls [] ++ List.replicate 4 [])) := by
    rw [← List.replicate_add, ← List.replicate_add,
      show 5 + (s.cfg.stretchPolls + 4) = 9 + s.cfg.stretchPolls by omega]
    exact Bus.follows_of_take h.1 (by rw [List.length_replicate]; exact h.2)
  exact raiseScl_held (halfDelay_follows (driveLow_follows .sda hfollows)) rfl

/-- R140: a wait that timed out is the whole budget of samples. -/
theorem IsWait.eq_replicate {n : Nat} {w : List Event} (h : IsWait n w true) :
    w = List.replicate n (.read .scl false) := by
  obtain ⟨k, -, -, htrue⟩ | ⟨hw, -⟩ := h
  · nomatch htrue
  · exact hw

/-- Settles O23: STOP goes on after its wait has timed out. -/
theorem heldSclStopTimesOut : Obligations.HeldSclStopTimesOut := by
  unfold Obligations.HeldSclStopTimesOut
  intro s hactive hheld
  have htimeout : (stopSeq (clearTimeout s)).1 = true := stopSeq_held hheld
  obtain ⟨w, hwait, hrun⟩ := stopSeq_runs (clearTimeout s)
  have hlatch := stopSeq_latch (clearTimeout s)
  rw [exec_stop hactive]
  generalize stopSeq (clearTimeout s) = r at *
  rw [htimeout] at hwait hrun ⊢
  rw [hwait.eq_replicate] at hrun
  exact ⟨_, rfl, hrun.timedOut, by simp [readResult_eq], rfl, hlatch, hrun.history⟩

end Sys2Proof.Machine
end

section
/-! PROOFS. The messages (42_framing.md R188 to R191): the address byte, the payload after it, and the stop, put
together for WRITE_MSG and READ_MSG. -/

namespace Sys2Proof.Machine

/-- R101. -/
theorem addressByte_eq (addr : Addr7) (rw : Direction) :
    addressByte addr rw = ((addr ++ rw.toBit : BitVec 8)) := by
  rw [← BitVec.setWidth_eq (addr ++ rw.toBit), BitVec.setWidth_append_eq_shiftLeft_setWidth_or]
  rfl

/-- Settles O29: shifting and or'ing puts the direction bit below the address. -/
theorem addressByteForm : Obligations.AddressByteForm := by
  unfold Obligations.AddressByteForm
  exact fun addr => ⟨addressByte_eq addr .write, addressByte_eq addr .read⟩

/-- R188: the stop's timeout counts only where all before it was `OK`. -/
theorem andThen_readResult (r : ResultCode) (p t : Bool) :
    r.andThen (readResult p t) = if r = .ok ∧ t = true ∧ p = true then .timeout else r := by
  by_cases hr : r = .ok
  · subst hr
    rw [ok_andThen, readResult_eq]
    simp
  · rw [andThen_of_ne_ok hr, if_neg (fun h => hr h.1)]

/-- `t` is `s` after a message whose start, address byte and payload are the events `es` with result `r` and timeout bit
`to'`, and whose stop has the wait `w`. The buffer is left open: READ_MSG writes it. -/
structure MessageEnds (s t : State) (r : ResultCode) (es : List Event) (to' : Bool) (w : List Event) (tw : Bool) :
    Prop where
  wait : IsWait s.cfg.stretchPolls w tw
  history : t.history = s.history ++ es ++ stopEvents s.delayUs w
  rc : t.rc = if r = .ok ∧ tw = true ∧ s.cfg.timeoutIsError = true then .timeout else r
  timedOut : t.timedOut = (to' || tw)
  released : t.Released
  carries : Carries s (setBuf s.buf { t with rc := s.rc })

theorem closeMessage_buf (r : ResultCode) (s : State) : (closeMessage r s).buf = s.buf := by
  obtain ⟨w, tw, -, -, -, hrun⟩ := closeMessage_runs r s
  exact hrun.carries.buf

theorem closeMessage_ends {s u : State} {es : List Event} {to' : Bool} (r : ResultCode)
    (h : Runs (clearTimeout s) (setBuf s.buf u) es to') :
    ∃ w tw, MessageEnds s (closeMessage r u) r es to' w tw := by
  obtain ⟨w, tw, hwait, hrc, hlatch, hclose⟩ := closeMessage_runs r u
  have hcfg : u.cfg = s.cfg := h.cfg
  have hdelay : u.delayUs = s.delayUs := h.delayUs
  have hrun := h.trans (hclose.setBuf s.buf)
  have hkeep := (clearTimeout_carries s).trans hrun.carries
  rw [hcfg] at hwait hrc
  rw [hdelay] at hrun
  generalize closeMessage r u = t at *
  exact ⟨w, tw, hwait, hrun.history.trans (List.append_assoc _ _ _).symm, hrc.trans (andThen_readResult _ _ _),
    hrun.timedOut, hlatch, hkeep.cfg, rfl, hkeep.ph, hkeep.rxdata, hkeep.delayUs, rfl, hkeep.host, hkeep.replies⟩

/-- R190: the payload after an address byte of result `r₀`, where every byte of it is written. -/
theorem sendPayload_after_address (n : Nat) (r₀ : ResultCode) {s : State} (h : s.PayloadWritten n) :
    ∃ u es r te, sendPayload n 0 r₀ s = .running r u ∧
      (if r₀ = .ok then PayloadSent s.delayUs s.cfg.stretchPolls s.cfg.timeoutIsError s.buf n 0 es r te
        else es = [] ∧ r = r₀ ∧ te = false) ∧ Runs s u es te := by
  by_cases hr : r₀ = .ok
  · subst hr
    obtain ⟨u, es, r, te, hsend, hpayload, hrun⟩ := sendPayload_runs n 0 s fun j _ hj => h j (by omega)
    exact ⟨u, es, r, te, hsend, by rwa [if_pos rfl], hrun⟩
  · exact ⟨s, [], r₀, false, sendPayload_failed n 0 s hr, by rw [if_neg hr]; exact ⟨rfl, rfl, rfl⟩, .refl s⟩

/-- R190: what a write message sends before its stop, where every byte of its payload is written. -/
theorem writeMsg_runs (addr : Addr7) {n : Nat} {s : State} (h : s.PayloadWritten n) :
    ∃ ea ack ta es r te u,
      ByteSent s.delayUs s.cfg.stretchPolls (addressByte addr .write) ack ea ta ∧
      (if byteResult s.cfg.timeoutIsError ack ta = .ok then
        PayloadSent s.delayUs s.cfg.stretchPolls s.cfg.timeoutIsError s.buf n 0 es r te
      else es = [] ∧ r = byteResult s.cfg.timeoutIsError ack ta ∧ te = false) ∧
      sendPayload n 0 (openMessage addr .write (clearTimeout s)).1 (openMessage addr .write (clearTimeout s)).2 =
        .running r u ∧
      Runs (clearTimeout s) u (startEvents s.delayUs ++ ea ++ es) (ta || te) := by
  obtain ⟨ea, ack, ta, hsent, hres, hopen⟩ := openMessage_runs addr .write (clearTimeout s)
  generalize openMessage addr .write (clearTimeout s) = o at *
  have hwritten : o.2.PayloadWritten n := fun i hi => by rw [hopen.carries.buf]; exact h i hi
  obtain ⟨u, es, r, te, hsend, hpayload, hrun⟩ := sendPayload_after_address n o.1 hwritten
  rw [hopen.delayUs, hopen.cfg, hopen.carries.buf, hres] at hpayload
  exact ⟨ea, ack, ta, es, r, te, u, hsent, hpayload, hsend, hopen.trans hrun⟩

theorem setBuf_of_runs {s u : State} {es : List Event} {x : Bool} (h : Runs s u es x) : setBuf s.buf u = u := by
  rw [← h.carries.buf]
  rfl

/-- R190, with the stop: what a write message answers once its payload has ended with result `r`. -/
theorem exec_writeMsg_ends {addr : Addr7} {len : Half} {s u : State} {r : ResultCode} {es : List Event} {to' : Bool}
    (hl : LegalNow (.writeMsg addr len) s)
    (hsend : sendPayload len.toNat 0 (openMessage addr .write (clearTimeout s)).1
      (openMessage addr .write (clearTimeout s)).2 = .running r u)
    (hrun : Runs (clearTimeout s) u es to') :
    ∃ w tw, exec (.writeMsg addr len) s = .next (closeMessage r u) ∧
      MessageEnds s (closeMessage r u) r es to' w tw ∧ SameBuffer s (closeMessage r u) := by
  have hkept : Runs (clearTimeout s) (setBuf s.buf u) es to' := (setBuf_of_runs hrun).symm ▸ hrun
  obtain ⟨w, tw, hends⟩ := closeMessage_ends r hkept
  refine ⟨w, tw, by rw [exec_writeMsg addr len hl, hsend, answerOf], hends, fun a => ?_⟩
  rw [closeMessage_buf, hrun.carries.buf]
  rfl

/-- Settles O30: the address byte, the payload while it gives `OK`, and the stop, each from its own lemma. -/
theorem writeMsgCompletes : Obligations.WriteMsgCompletes := by
  unfold Obligations.WriteMsgCompletes
  intro addr len s hidle hlen hwritten
  obtain ⟨ea, ack, ta, es, r, te, u, hsent, hpayload, hsend, hrun⟩ := writeMsg_runs addr hwritten
  obtain ⟨w, tw, hexec, hends, hbuf⟩ := exec_writeMsg_ends ⟨hidle, hlen⟩ hsend hrun
  have hhist := hends.history
  rw [← List.append_assoc, ← List.append_assoc] at hhist
  obtain ⟨hcfg, -, hph, hrx, hdelay, -, hhost, hreplies⟩ := hends.carries
  exact ⟨_, ea, ack, ta, es, r, te, w, tw, hexec, hsent, hpayload, hends.wait, hhist, hends.rc, hends.timedOut,
    hph.trans hidle, hends.released, hrx, hdelay, hbuf, hcfg, hhost, hreplies⟩

/-- R191: the payload after an address byte of result `r₀`. -/
theorem readPayload_runs (n : Nat) (r₀ : ResultCode) (s : State) :
    ∃ vs es te, (if r₀ = .ok then
        vs.length = n ∧ PayloadRead s.delayUs s.cfg.stretchPolls s.cfg.timeoutIsError vs es (readPayload n r₀ s).1 te
      else vs = [] ∧ es = [] ∧ (readPayload n r₀ s).1 = r₀ ∧ te = false) ∧
      Stored vs s.buf (readPayload n r₀ s).2.buf ∧ Runs s (setBuf s.buf (readPayload n r₀ s).2) es te := by
  by_cases hr : r₀ = .ok
  · subst hr
    obtain ⟨vs, es, r', te, rfl, hpayload, hres, hbuf, hrun⟩ := recvPayload_runs n 0 .ok s
    rw [ok_andThen] at hres
    refine ⟨vs, es, te, ?_, fun a => ?_, hrun⟩
    · rw [if_pos rfl, readPayload, hres]
      exact ⟨rfl, hpayload⟩
    · rw [readPayload, hbuf a]
      simp
  · rw [readPayload_failed n s hr]
    exact ⟨[], [], false, by rw [if_neg hr]; exact ⟨rfl, rfl, rfl, rfl⟩, fun a => by simp, .refl s⟩

/-- Settles O31: as for a write message; the payload's bytes are followed apart from the lines. -/
theorem readMsgCompletes : Obligations.ReadMsgCompletes := by
  unfold Obligations.ReadMsgCompletes
  intro addr len s hidle hlen
  obtain ⟨ea, ack, ta, hsent, hres, hopen⟩ := openMessage_runs addr .read (clearTimeout s)
  rw [exec_readMsg addr len ⟨hidle, hlen⟩]
  generalize openMessage addr .read (clearTimeout s) = o at *
  obtain ⟨vs, es, te, hpayload, hstored, hrun⟩ := readPayload_runs len.toNat o.1 o.2
  generalize readPayload len.toNat o.1 o.2 = q at *
  rw [hopen.delayUs, hopen.cfg, hres] at hpayload
  rw [hopen.carries.buf] at hstored hrun
  obtain ⟨w, tw, hends⟩ := closeMessage_ends q.1 (hopen.trans hrun)
  rw [← closeMessage_buf q.1 q.2] at hstored
  have hhist := hends.history
  rw [← List.append_assoc, ← List.append_assoc] at hhist
  obtain ⟨hcfg, -, hph, hrx, hdelay, -, hhost, hreplies⟩ := hends.carries
  exact ⟨_, ea, ack, ta, vs, es, q.1, te, w, tw, rfl, hsent, hpayload, hends.wait, hhist, hends.rc, hends.timedOut,
    hstored, hph.trans hidle, hends.released, hrx, hdelay, hcfg, hhost, hreplies⟩

/-- R64: the payload loop stops at an unwritten byte it comes to. -/
theorem sendPayload_unwritten {n i : Nat} {s : State} (hn : 0 < n) (h : Memory.read s.buf i = none) :
    sendPayload n i .ok s = .stopped (.bufUnwritten i) := by
  obtain ⟨m, rfl⟩ := Nat.exists_eq_succ_of_ne_zero (Nat.pos_iff_ne_zero.1 hn)
  simp only [sendPayload, h]

/-- R64, R190: byte `i` being the first unwritten one of a longer message, its first `i` bytes decide. -/
theorem sendPayload_to_unwritten {n i : Nat} {r₀ r : ResultCode} {s u : State} (hi : i < n)
    (hsend : sendPayload i 0 r₀ s = .running r u) (hn : Memory.read u.buf i = none) :
    sendPayload n 0 r₀ s = if r = .ok then .stopped (.bufUnwritten i) else .running r u := by
  have hadd := sendPayload_add i (n - i) 0 r₀ s
  rw [Nat.add_sub_cancel' hi.le, hsend, Nat.zero_add] at hadd
  by_cases hr : r = .ok
  · subst hr
    exact hadd.trans (sendPayload_unwritten (Nat.sub_pos_of_lt hi) hn)
  · rw [if_neg hr]
    exact hadd.trans (sendPayload_failed _ _ _ hr)

/-- A message that answers a fault stopped there. -/
theorem stopped_of_answerOf {p : Progress} {f : Fault} (h : answerOf p = .fault f) : p = .stopped f := by
  cases p with
  | running r s => simp [answerOf] at h
  | stopped g => simpa [answerOf] using h

/-- R64, R97: a write message that faults was legal, and met its first unwritten byte. -/
theorem exec_writeMsg_fault {addr : Addr7} {len : Half} {s : State} {f : Fault}
    (h : exec (.writeMsg addr len) s = .fault f) :
    s.ph = .idle ∧ ∃ i < len.toNat, f = .bufUnwritten i ∧ Memory.read s.buf i = none ∧ s.PayloadWritten i := by
  by_cases hl : LegalNow (.writeMsg addr len) s
  · rw [exec_writeMsg addr len hl] at h
    obtain ⟨ea, ack, ta, -, -, hopen⟩ := openMessage_runs addr .write (clearTimeout s)
    generalize openMessage addr .write (clearTimeout s) = o at *
    obtain ⟨k, -, hk, hf, hnone, hall⟩ := sendPayload_stopped _ _ _ _ (stopped_of_answerOf h)
    rw [hopen.carries.buf] at hnone hall
    exact ⟨hl.1, k, by omega, hf, hnone, fun j hj => hall j (Nat.zero_le j) hj⟩
  · rw [exec_illegal hl] at h
    nomatch h

/-- Settles O32: the longer message is the message of length `i`, and then comes to byte `i` or not. -/
theorem writeMsgFaultIsUnwrittenByte : Obligations.WriteMsgFaultIsUnwrittenByte := by
  unfold Obligations.WriteMsgFaultIsUnwrittenByte
  refine ⟨fun _ _ _ _ h => exec_writeMsg_fault h, fun addr len i s hidle hlen hi hwritten hnone => ?_⟩
  obtain ⟨ea, ack, ta, es, r, te, u, hsent, hpayload, hsend, hrun⟩ := writeMsg_runs addr hwritten
  obtain ⟨w, tw, hexec, hends, -⟩ := exec_writeMsg_ends ⟨hidle, hi.le.trans hlen⟩ hsend hrun
  have hhist := hends.history
  rw [← List.append_assoc, ← List.append_assoc] at hhist
  have hlong := sendPayload_to_unwritten hi hsend (by rw [hrun.carries.buf]; exact hnone)
  refine ⟨_, ea, ack, ta, es, r, te, w, tw, hexec, hsent, hpayload, hends.wait, hhist, ?_⟩
  rw [exec_writeMsg addr len ⟨hidle, hlen⟩, hlong]
  split
  · rfl
  · rfl

end Sys2Proof.Machine
end

section
/-! PROOFS. What a command can answer (60_exceptions.md R220, R236), and what it leaves of the registers and the buffer
(10_state.md R35, R38, R41, 20_memory.md R63). -/

namespace Sys2Proof.Machine

/-- R236: a command answers a next state, or it is a write message that faults. -/
theorem exec_next_or_fault (i : Instr) (s : State) :
    (∃ t, exec i s = .next t) ∨ ∃ addr len f, i = .writeMsg addr len ∧ exec i s = .fault f := by
  by_cases hl : LegalNow i s
  · cases i with
    | driveLow l => exact .inl ⟨_, exec_driveLow l s⟩
    | release l => exact .inl ⟨_, exec_release l s⟩
    | sample l => exact .inl ⟨_, exec_sample l s⟩
    | halfDelay => exact .inl ⟨_, exec_halfDelay s⟩
    | setDelay us => exact .inl ⟨_, exec_setDelay us s⟩
    | start => exact .inl ⟨_, exec_start hl⟩
    | rstart => exact .inl ⟨_, exec_rstart hl⟩
    | stop => exact .inl ⟨_, exec_stop hl⟩
    | writeByte d => exact .inl ⟨_, exec_writeByte d hl⟩
    | readByte a => exact .inl ⟨_, exec_readByte a hl⟩
    | readMsg addr len => exact .inl ⟨_, exec_readMsg addr len hl⟩
    | writeMsg addr len =>
      rw [exec_writeMsg addr len hl]
      cases sendPayload len.toNat 0 (openMessage addr .write (clearTimeout s)).1
          (openMessage addr .write (clearTimeout s)).2 with
      | running r u => exact .inl ⟨_, rfl⟩
      | stopped f => exact .inr ⟨addr, len, f, rfl, rfl⟩
  · exact .inl ⟨_, exec_illegal hl⟩

theorem exec_ne_refused (i : Instr) (s : State) (r : Refusal) : exec i s ≠ .refused r := by
  obtain ⟨t, ht⟩ | ⟨addr, len, f, -, hf⟩ := exec_next_or_fault i s
  · rw [ht]; exact nofun
  · rw [hf]; exact nofun

/-- Settles O10: every command but WRITE_MSG answers a next state. -/
theorem onlyWriteMsgFaults : Obligations.OnlyWriteMsgFaults := by
  unfold Obligations.OnlyWriteMsgFaults
  refine fun i s => ⟨exec_ne_refused i s, fun f hf => ?_⟩
  obtain ⟨t, ht⟩ | ⟨addr, len, _, hi, -⟩ := exec_next_or_fault i s
  · rw [ht] at hf
    nomatch hf
  · exact ⟨addr, len, hi⟩

/-- The phase a legal command leaves (R38). -/
def phaseAfter : Instr → Phase → Phase
  | .start, _ => .active
  | .stop, _ => .idle
  | _, p => p

/-- The bytes of the buffer a command can write are those below this index (R191). -/
def storesBelow : Instr → Nat
  | .readMsg _ len => len.toNat
  | _ => 0

/-- What command `i` leaves of the phase, the registers and the buffer. -/
structure Frame (i : Instr) (s t : State) : Prop where
  ph : t.ph = phaseAfter i s.ph
  rxdata : (∀ l, i ≠ .sample l) → (∀ d, i ≠ .writeByte d) → (∀ a, i ≠ .readByte a) → t.rxdata = s.rxdata
  delayUs : (∀ us, i ≠ .setDelay us) → t.delayUs = s.delayUs
  buffer : ∀ a, storesBelow i ≤ a → Memory.read t.buf a = Memory.read s.buf a

theorem next_unique {a : Answer} {t u : State} (h : a = .next t) (hu : a = .next u) : t = u :=
  Host.Outcome.next.inj (h.symm.trans hu)

theorem sendPayload_carries {n i : Nat} {r r' : ResultCode} {s t : State}
    (h : sendPayload n i r s = .running r' t) : Carries s t := by
  induction n generalizing i r s with
  | zero =>
    simp only [sendPayload, Progress.running.injEq] at h
    exact h.2 ▸ .refl s
  | succ n ih =>
    by_cases hr : r = .ok
    · subst hr
      simp only [sendPayload] at h
      split at h
      · nomatch h
      · next d _ =>
        obtain ⟨_, _, hrun⟩ := writeByteCore_runs d s
        exact hrun.carries.trans (ih h)
    · rw [sendPayload_failed _ _ _ hr, Progress.running.injEq] at h
      exact h.2 ▸ .refl s

/-- R190: a write message changes no register but `STATUS`, and no byte of the buffer. -/
theorem exec_writeMsg_frame {addr : Addr7} {len : Half} {s t : State} (hl : LegalNow (.writeMsg addr len) s)
    (h : exec (.writeMsg addr len) s = .next t) : Frame (.writeMsg addr len) s t := by
  rw [exec_writeMsg addr len hl] at h
  obtain ⟨ea, ack, ta, -, -, hopen⟩ := openMessage_runs addr .write (clearTimeout s)
  generalize openMessage addr .write (clearTimeout s) = o at *
  cases hsend : sendPayload len.toNat 0 o.1 o.2 with
  | running r u =>
    rw [hsend, answerOf] at h
    obtain ⟨w, tw, -, -, -, hclose⟩ := closeMessage_runs r u
    rw [Host.Outcome.next.inj h] at hclose
    have hkeep := (((clearTimeout_carries s).trans hopen.carries).trans (sendPayload_carries hsend)).trans
      hclose.carries
    exact ⟨hkeep.ph, fun _ _ _ => hkeep.rxdata, fun _ => hkeep.delayUs, fun a _ => hkeep.sameBuffer a⟩
  | stopped f =>
    rw [hsend, answerOf] at h
    nomatch h

/-- R191: a read message writes the bytes below its length, and no other register than `STATUS`. -/
theorem exec_readMsg_frame {addr : Addr7} {len : Half} {s t : State} (hl : LegalNow (.readMsg addr len) s)
    (h : exec (.readMsg addr len) s = .next t) : Frame (.readMsg addr len) s t := by
  obtain ⟨u, ea, ack, ta, vs, es, r, te, w, tw, hu, -, hpayload, -, -, -, -, hstored, hph, -, hrx, hdelay, -⟩ :=
    readMsgCompletes addr len s hl.1 hl.2
  obtain rfl := next_unique h hu
  have hlen : vs.length ≤ len.toNat := by
    split at hpayload
    · exact hpayload.1.le
    · rw [hpayload.1]; exact Nat.zero_le _
  refine ⟨hph.trans hl.1.symm, fun _ _ _ => hrx, fun _ => hdelay, fun a ha => ?_⟩
  rw [hstored a, if_neg (Nat.not_lt.2 (hlen.trans ha))]

/-- A legal command's frame, from what it was shown to answer. -/
theorem exec_legal_frame {i : Instr} {s t : State} (hl : LegalNow i s) (h : exec i s = .next t) : Frame i s t := by
  cases i with
  | driveLow l =>
    obtain ⟨u, hu, -, -, -, -, -, hph, hrx, hdelay, hbuf, -⟩ := driveLowCompletes l s
    obtain rfl := next_unique h hu
    exact ⟨hph, fun _ _ _ => hrx, fun _ => hdelay, fun a _ => hbuf a⟩
  | release l =>
    obtain ⟨u, hu, -, -, -, -, -, hph, hrx, hdelay, hbuf, -⟩ := releaseCompletes l s
    obtain rfl := next_unique h hu
    exact ⟨hph, fun _ _ _ => hrx, fun _ => hdelay, fun a _ => hbuf a⟩
  | sample l =>
    obtain ⟨u, v, hu, -, -, -, -, -, -, -, hph, hdelay, hbuf, -⟩ := sampleCompletes l s
    obtain rfl := next_unique h hu
    exact ⟨hph, fun hne => absurd rfl (hne l), fun _ => hdelay, fun a _ => hbuf a⟩
  | halfDelay =>
    obtain ⟨u, hu, -, -, -, -, hph, hrx, hdelay, hbuf, -⟩ := halfDelayCompletes s
    obtain rfl := next_unique h hu
    exact ⟨hph, fun _ _ _ => hrx, fun _ => hdelay, fun a _ => hbuf a⟩
  | setDelay us =>
    obtain ⟨u, hu, -, -, -, -, -, hph, hrx, hbuf, -⟩ := setDelayCompletes us s
    obtain rfl := next_unique h hu
    exact ⟨hph, fun _ _ _ => hrx, fun hne => absurd rfl (hne us), fun a _ => hbuf a⟩
  | start =>
    obtain ⟨u, hu, -, -, hph, -, -, hrx, hdelay, hbuf, -⟩ := startCompletes s hl
    obtain rfl := next_unique h hu
    exact ⟨hph, fun _ _ _ => hrx, fun _ => hdelay, fun a _ => hbuf a⟩
  | rstart =>
    obtain ⟨u, w, tw, hu, -, -, -, -, -, hph, hrx, hdelay, hbuf, -⟩ := rstartCompletes s hl
    obtain rfl := next_unique h hu
    exact ⟨hph.trans hl.symm, fun _ _ _ => hrx, fun _ => hdelay, fun a _ => hbuf a⟩
  | stop =>
    obtain ⟨u, w, tw, hu, -, -, -, -, -, hph, hrx, hdelay, hbuf, -⟩ := stopCompletes s hl
    obtain rfl := next_unique h hu
    exact ⟨hph, fun _ _ _ => hrx, fun _ => hdelay, fun a _ => hbuf a⟩
  | writeByte d =>
    obtain ⟨u, es, ack, to', hu, -, -, -, -, -, -, hph, hdelay, hbuf, -⟩ := writeByteCompletes d s hl
    obtain rfl := next_unique h hu
    exact ⟨hph.trans hl.symm, fun _ hne => absurd rfl (hne d), fun _ => hdelay, fun a _ => hbuf a⟩
  | readByte a =>
    obtain ⟨u, es, v, to', hu, -, -, -, -, -, -, hph, hdelay, hbuf, -⟩ := readByteCompletes a s hl
    obtain rfl := next_unique h hu
    exact ⟨hph.trans hl.symm, fun _ _ hne => absurd rfl (hne a), fun _ => hdelay, fun b _ => hbuf b⟩
  | writeMsg addr len => exact exec_writeMsg_frame hl h
  | readMsg addr len => exact exec_readMsg_frame hl h

/-- R38: an illegal START is met in ACTIVE, an illegal STOP in IDLE, so `reject` leaves the phase they would. -/
theorem phaseAfter_of_illegal {i : Instr} {s : State} (hl : ¬ LegalNow i s) : phaseAfter i s.ph = s.ph := by
  cases i with
  | start => cases hp : s.ph with
    | idle => exact absurd hp hl
    | active => rfl
  | stop => cases hp : s.ph with
    | idle => rfl
    | active => exact absurd hp hl
  | _ => rfl

theorem exec_frame {i : Instr} {s t : State} (h : exec i s = .next t) : Frame i s t := by
  by_cases hl : LegalNow i s
  · exact exec_legal_frame hl h
  · obtain rfl := next_unique h (exec_illegal hl)
    exact ⟨(phaseAfter_of_illegal hl).symm, fun _ _ _ => rfl, fun _ => rfl, fun _ _ => rfl⟩

theorem phaseAfter_of_ne {i : Instr} (hstart : i ≠ .start) (hstop : i ≠ .stop) (p : Phase) : phaseAfter i p = p := by
  cases i with
  | start => exact absurd rfl hstart
  | stop => exact absurd rfl hstop
  | _ => rfl

theorem storesBelow_of_ne {i : Instr} (h : ∀ addr len, i ≠ .readMsg addr len) : storesBelow i = 0 := by
  cases i with
  | readMsg addr len => exact absurd rfl (h addr len)
  | _ => rfl

/-- Settles O36: the frame's phase, START and STOP apart. -/
theorem phaseWriters : Obligations.PhaseWriters := by
  unfold Obligations.PhaseWriters
  intro i s t h
  have hph := (exec_frame h).ph
  refine ⟨?_, ?_, fun hstart hstop => ?_⟩
  · rintro rfl; exact hph
  · rintro rfl; exact hph
  · rw [hph, phaseAfter_of_ne hstart hstop]

/-- Settles O37: the frame, with the buffer's clause read for READ_MSG and for the others. -/
theorem registerWriters : Obligations.RegisterWriters := by
  unfold Obligations.RegisterWriters
  intro i s t h
  have hframe := exec_frame h
  have hadv := exec_advances h
  refine ⟨hframe.rxdata, hframe.delayUs, fun hne a => ?_, ?_, hadv.cfg, hadv.host, hadv.replies⟩
  · exact hframe.buffer a (by rw [storesBelow_of_ne hne]; exact Nat.zero_le a)
  · rintro addr len rfl
    exact hframe.buffer

end Sys2Proof.Machine
end

section
/-! PROOFS. The step (10_state.md R20 to R23, R42): which access it makes, and what every step keeps, said once as
`Progresses` for the invariant, the records and the trace. -/

namespace Sys2Proof.Machine

/-- A step with an access waiting makes that access. -/
theorem step_of_host {s : State} {a : HostAccess} {rest : List HostAccess} (hok : s.cfg.ok = true)
    (hhost : s.host = a :: rest) : step s = hostAccess a { s with host := rest } := by
  simp only [step, hok, hhost, if_true]

/-- R235: a step with none waiting is the environment's. -/
theorem step_of_no_host {s : State} (hok : s.cfg.ok = true) (hhost : s.host = []) : step s = .next (idle s) := by
  simp only [step, hok, hhost, if_true]

/-- R9: a refused configuration has no run. -/
theorem step_of_not_ok {s : State} (hok : s.cfg.ok = false) : step s = .refused .configuration := by
  simp only [step, hok, Bool.false_eq_true, if_false]

theorem command_of_decode {w : Word} {i : Instr} (h : decode w = .command i) (s : State) :
    command w s = exec i s := by
  simp only [command, h]

/-- R42: a write to `CMD` is the command port. -/
theorem step_of_cmdWrite {s : State} {w : Word} {rest : List HostAccess} (hok : s.cfg.ok = true)
    (hhost : s.host = .regWrite 0 32 w :: rest) : step s = command w { s with host := rest } :=
  step_of_host hok hhost

/-- Settles O7: the command port runs the command the word decodes to. -/
theorem stepRunsDecodedCommand : Obligations.StepRunsDecodedCommand := by
  unfold Obligations.StepRunsDecodedCommand
  intro s w rest i hok hhost hdecode
  rw [step_of_cmdWrite hok hhost, command_of_decode hdecode]

/-- Settles O50: on every ground the word is no command, and the command port rejects it. -/
theorem stepRejectsIllegalWord : Obligations.StepRejectsIllegalWord := by
  unfold Obligations.StepRejectsIllegalWord
  intro s w rest hok hhost
  have hreject : (∀ i, decode w ≠ .command i) → step s = .next (reject { s with host := rest }) := fun hne => by
    rw [step_of_cmdWrite hok hhost, command_of_ne_command hne]
  refine ⟨hreject, fun h => hreject ?_⟩
  obtain hres | ⟨r, hr, ho, hne⟩ := h
  · exact decode_ne_command_of_reservedOpcode hres
  · exact decode_ne_command_of_not_match hr ho hne

theorem tableWord_encode (i : Instr) : tableWord 32 (encode i).toNat = encode i := by
  rw [tableWord, Nat.mod_eq_of_lt (encode i).isLt, BitVec.ofNat_toNat, BitVec.setWidth_eq]

/-- Settles O8: taking the placed write off the queue gives the state back. -/
theorem placedWordRuns : Obligations.PlacedWordRuns := by
  unfold Obligations.PlacedWordRuns
  intro i s hok
  have hhost : (s.withFetchWord 32 (encode i).toNat).host = .regWrite 0 32 (encode i) :: s.host := by
    rw [State.withFetchWord, tableWord_encode]; rfl
  have hok' : (s.withFetchWord 32 (encode i).toNat).cfg.ok = true := hok
  rw [stepRunsDecodedCommand _ _ _ i hok' hhost (decodeOfEncode i)]
  rfl

/-- What every step keeps: the configuration, the growth of the records, a well-formed buffer. -/
structure Progresses (s t : State) : Prop where
  cfg : t.cfg = s.cfg
  grows : s.bus.Grows t.bus
  buffer : BufferOk s → BufferOk t

theorem Advances.progresses {s t : State} (h : Advances s t) : Progresses s t := ⟨h.cfg, h.grows, h.buffer⟩

theorem idle_progresses (s : State) : Progresses s (idle s) := ⟨rfl, Bus.gap_grows _, id⟩

theorem command_progresses {w : Word} {s t : State} (h : command w s = .next t) : Progresses s t := by
  cases hd : decode w with
  | command i =>
    rw [command_of_decode hd] at h
    exact (exec_advances h).progresses
  | illegal c =>
    rw [command_of_ne_command (by simp [hd])] at h
    exact Host.Outcome.next.inj h ▸ (reject_advances s).progresses

theorem command_ne_refused (w : Word) (s : State) (r : Refusal) : command w s ≠ .refused r := by
  cases hd : decode w with
  | command i =>
    rw [command_of_decode hd]
    exact exec_ne_refused i s r
  | illegal c =>
    rw [command_of_ne_command (by simp [hd])]
    exact nofun

/-- What a host access can answer (R61 to R65): what the command port does, a next state, the fault, or a refusal of its
own name. -/
theorem hostAccess_outcome (a : HostAccess) (s : State) :
    (∃ w, hostAccess a s = command w s) ∨ (∃ t, hostAccess a s = .next t ∧ Progresses s t) ∨
      (∃ f, hostAccess a s = .fault f) ∨ ∃ r, hostAccess a s = .refused r ∧ r ≠ .configuration := by
  cases a with
  | regWrite offset width value =>
    simp only [hostAccess]
    cases hostReg offset width with
    | none => exact .inr (.inr (.inr ⟨_, rfl, nofun⟩))
    | some r => cases r with
      | cmd => exact .inl ⟨value, rfl⟩
      | status | rxdata | delay => exact .inr (.inl ⟨s, rfl, rfl, .refl _, id⟩)
  | regRead offset width =>
    simp only [hostAccess]
    cases hostReg offset width with
    | none => exact .inr (.inr (.inr ⟨_, rfl, nofun⟩))
    | some r => exact .inr (.inl ⟨_, rfl, rfl, .refl _, id⟩)
  | bufWrite index value =>
    simp only [hostAccess]
    split
    · next hi => exact .inr (.inl ⟨_, rfl, (storeByte_advances hi value).progresses⟩)
    · exact .inr (.inr (.inr ⟨_, rfl, nofun⟩))
  | bufRead index =>
    simp only [hostAccess]
    split
    · cases Memory.read s.buf index with
      | some v => exact .inr (.inl ⟨_, rfl, rfl, .refl _, id⟩)
      | none => exact .inr (.inr (.inl ⟨_, rfl⟩))
    · exact .inr (.inr (.inr ⟨_, rfl, nofun⟩))

theorem hostAccess_progresses {a : HostAccess} {s t : State} (h : hostAccess a s = .next t) : Progresses s t := by
  obtain ⟨w, hw⟩ | ⟨u, hu, hprog⟩ | ⟨f, hf⟩ | ⟨r, hr, -⟩ := hostAccess_outcome a s
  · exact command_progresses (hw.symm.trans h)
  · exact next_unique h hu ▸ hprog
  · nomatch hf.symm.trans h
  · nomatch hr.symm.trans h

theorem hostAccess_ne_configuration (a : HostAccess) (s : State) : hostAccess a s ≠ .refused .configuration := by
  intro h
  obtain ⟨w, hw⟩ | ⟨u, hu, -⟩ | ⟨f, hf⟩ | ⟨r, hr, hne⟩ := hostAccess_outcome a s
  · exact command_ne_refused w s _ (hw.symm.trans h)
  · nomatch hu.symm.trans h
  · nomatch hf.symm.trans h
  · exact hne (Host.Outcome.refused.inj (hr.symm.trans h))

theorem step_progresses {s t : State} (h : step s = .next t) : Progresses s t := by
  cases hok : s.cfg.ok with
  | false =>
    rw [step_of_not_ok hok] at h
    nomatch h
  | true =>
    cases hhost : s.host with
    | nil =>
      rw [step_of_no_host hok hhost] at h
      exact Host.Outcome.next.inj h ▸ idle_progresses s
    | cons a rest =>
      rw [step_of_host hok hhost] at h
      obtain ⟨hcfg, hgrows, hbuf⟩ := hostAccess_progresses h
      exact ⟨hcfg, hgrows, hbuf⟩

/-- Settles O41: the buffer stays well-formed, and what grows notes the contention it leaves. -/
theorem stepKeepsInvariant : Obligations.StepKeepsInvariant := by
  unfold Obligations.StepKeepsInvariant
  rintro s t ⟨hwf, hwithin, hnoted⟩ h
  obtain ⟨-, hgrows, hbuffer⟩ := step_progresses h
  obtain ⟨hwf', hwithin'⟩ := hbuffer ⟨hwf, hwithin⟩
  exact ⟨hwf', hwithin', hgrows.noted hnoted⟩

/-- Settles O39: the history is the events of a trace that only grows. -/
theorem recordsOnlyGrow : Obligations.RecordsOnlyGrow := by
  unfold Obligations.RecordsOnlyGrow
  intro s t h
  obtain ⟨hcfg, hgrows, -⟩ := step_progresses h
  exact ⟨hcfg, hgrows.trace, hgrows.trace.filterMap _, hgrows.contention⟩

/-- Settles O53: every operation on the lines adds points that tell what it did, and so does their composition. -/
theorem traceTellsTheLines : Obligations.TraceTellsTheLines := by
  unfold Obligations.TraceTellsTheLines
  exact fun s t h => (step_progresses h).grows.tells

/-- Settles O40: the last micro-step of reset notes the contention it leaves. -/
theorem resetMeetsInvariant : Obligations.ResetMeetsInvariant := by
  unfold Obligations.ResetMeetsInvariant
  have hbuf : State.reset.buf = [] := rfl
  refine ⟨⟨?_, ?_, fun h => Bus.record_noted _ _ h⟩, by decide, Config.gpioPreDir, Config.gpioPreOut,
    Config.extPre, rfl⟩
  · rw [hbuf]; exact Memory.wf_nil
  · rw [hbuf]; exact nofun

/-- Settles O48: the gap leaves the latches and adds no event; a planned change is the one the gap makes. -/
theorem idleStepIsEnvironments : Obligations.IdleStepIsEnvironments := by
  unfold Obligations.IdleStepIsEnvironments
  intro s hok hhost
  refine ⟨idle s, step_of_no_host hok hhost, rfl, Bus.gap_history s.bus, rfl, rfl, rfl, rfl, fun h rest hplan => ?_⟩
  simp [idle, Bus.gap, Bus.moves, hplan, lastHold]

end Sys2Proof.Machine
end

section
/-! PROOFS. Refused configurations (00_scope.md R9, 10_state.md R25). -/

namespace Sys2Proof

/-- R25: two pins are not distinct when they share a bit index and a direction or output register. -/
theorem PinBinding.distinct_eq_false_iff (a b : PinBinding) :
    a.distinct b = false ↔ a.bit = b.bit ∧ (a.dirReg = b.dirReg ∨ a.outReg = b.outReg) := by
  simp only [PinBinding.distinct, Bool.not_eq_false', Bool.and_eq_true, Bool.or_eq_true, beq_iff_eq]

theorem Params.bound_eq_false_iff (c : Params) :
    c.bound = false ↔ c.sdaBind = none ∨ c.sclBind = none ∨
      ∃ a b, c.sdaBind = some a ∧ c.sclBind = some b ∧ a.bit = b.bit ∧ (a.dirReg = b.dirReg ∨ a.outReg = b.outReg) := by
  cases ha : c.sdaBind with
  | none => cases hb : c.sclBind with
    | none => simp [Params.bound, ha, hb]
    | some b => simp [Params.bound, ha, hb]
  | some a => cases hb : c.sclBind with
    | none => simp [Params.bound, ha, hb]
    | some b => simp [Params.bound, ha, hb, PinBinding.distinct_eq_false_iff]

/-- R9: the grounds on which a configuration is refused. -/
theorem Params.ok_eq_false_iff (c : Params) :
    c.ok = false ↔ c.bound = false ∨ c.stretchPolls = 0 ∨ c.bufSize = 0 ∨ 65536 < c.bufSize := by
  simp only [Params.ok, Params.pollsOk, Params.bufSizeOk, Bool.and_eq_false_iff, decide_eq_false_iff_not, Nat.not_lt,
    Nat.not_le, Nat.le_zero, or_assoc]

end Sys2Proof

namespace Sys2Proof.Machine

/-- No access and no command gives the refusal of the configuration. -/
theorem step_eq_configuration_iff (s : State) : step s = .refused .configuration ↔ s.cfg.ok = false := by
  refine ⟨fun h => ?_, step_of_not_ok⟩
  by_contra hne
  have hok : s.cfg.ok = true := Bool.eq_true_of_not_eq_false hne
  cases hhost : s.host with
  | nil =>
    rw [step_of_no_host hok hhost] at h
    nomatch h
  | cons a rest =>
    rw [step_of_host hok hhost] at h
    exact hostAccess_ne_configuration _ _ h

/-- Settles O47: only the test of the configuration gives that refusal, and it is false on exactly these grounds. -/
theorem refusedConfigurations : Obligations.RefusedConfigurations := by
  unfold Obligations.RefusedConfigurations
  intro s
  rw [step_eq_configuration_iff, Params.ok_eq_false_iff, Params.bound_eq_false_iff]
  simp only [or_assoc, or_left_comm, or_comm]

end Sys2Proof.Machine
end

section
/-! PROOFS. The host port (20_memory.md R61 to R65): the register map, the status word (10_state.md R36) and the buffer
accesses. -/

namespace Sys2Proof.Machine

/-- R36: the bits of the status word. -/
theorem State.status_getLsbD (s : State) (i : Nat) :
    s.status.getLsbD i =
      if i < 2 then s.rc.toBits.getLsbD i else if i < 3 then s.timedOut else if i < 4 then s.ph.toBit.getLsbD 0
      else false := by
  simp only [State.status, BitVec.getLsbD_append]
  by_cases h2 : i < 2
  · simp [h2]
  · by_cases h3 : i < 3
    · obtain rfl : i = 2 := by omega
      simp [bitOfLevel]
    · by_cases h4 : i < 4
      · obtain rfl : i = 3 := by omega
        simp
      · simp [h2, h3, h4, show ¬ i - 2 < 1 by omega, show ¬ i - 2 - 1 < 1 by omega]

/-- R61: an access that is not an aligned 32-bit one inside the map reaches no register. -/
theorem hostReg_eq_none {off width : Nat} (h : width ≠ 32 ∨ off % 4 ≠ 0 ∨ 0x0F < off) : hostReg off width = none := by
  unfold hostReg
  by_cases hw : width = 32
  · rw [if_pos hw, if_neg (by omega), if_neg (by omega), if_neg (by omega), if_neg (by omega)]
  · rw [if_neg hw]

section
variable {s : State} {rest : List HostAccess} (hok : s.cfg.ok = true)
include hok

theorem step_of_regRead {off width : Nat} {r : HostReg} (hhost : s.host = .regRead off width :: rest)
    (hr : hostReg off width = some r) :
    step s = .next { s with host := rest, replies := s.replies ++ [.reg off (readReg s r)] } := by
  rw [step_of_host hok hhost]
  simp only [hostAccess, hr]
  cases r <;> rfl

theorem step_of_regRead_refused {off width : Nat} (hhost : s.host = .regRead off width :: rest)
    (hr : hostReg off width = none) : step s = .refused (.registerAccess off width) := by
  rw [step_of_host hok hhost]
  simp only [hostAccess, hr]

theorem step_of_regWrite_refused {off width : Nat} {w : Word} (hhost : s.host = .regWrite off width w :: rest)
    (hr : hostReg off width = none) : step s = .refused (.registerAccess off width) := by
  rw [step_of_host hok hhost]
  simp only [hostAccess, hr]

/-- R65: a write to a register other than `CMD` is ignored. -/
theorem step_of_regWrite_ignored {off width : Nat} {w : Word} {r : HostReg}
    (hhost : s.host = .regWrite off width w :: rest) (hr : hostReg off width = some r) (hne : r ≠ .cmd) :
    step s = .next { s with host := rest } := by
  rw [step_of_host hok hhost]
  simp only [hostAccess, hr]
  cases r with
  | cmd => exact absurd rfl hne
  | status | rxdata | delay => rfl

theorem step_of_bufWrite {i : Nat} {v : Byte} (hhost : s.host = .bufWrite i v :: rest) (hi : i < s.cfg.bufSize) :
    step s = .next { s with host := rest, buf := Memory.write s.buf i v } := by
  rw [step_of_host hok hhost]
  exact if_pos hi

theorem step_of_bufWrite_refused {i : Nat} {v : Byte} (hhost : s.host = .bufWrite i v :: rest)
    (hi : s.cfg.bufSize ≤ i) : step s = .refused (.bufferIndex i) := by
  rw [step_of_host hok hhost]
  exact if_neg (Nat.not_lt.2 hi)

theorem step_of_bufRead {i : Nat} {v : Byte} (hhost : s.host = .bufRead i :: rest) (hi : i < s.cfg.bufSize)
    (hv : Memory.read s.buf i = some v) :
    step s = .next { s with host := rest, replies := s.replies ++ [.byte i v] } := by
  rw [step_of_host hok hhost]
  simp only [hostAccess, hi, hv, if_true]

/-- R64. -/
theorem step_of_bufRead_unwritten {i : Nat} (hhost : s.host = .bufRead i :: rest) (hi : i < s.cfg.bufSize)
    (hv : Memory.read s.buf i = none) : step s = .fault (.bufUnwritten i) := by
  rw [step_of_host hok hhost]
  simp only [hostAccess, hi, hv, if_true]

theorem step_of_bufRead_refused {i : Nat} (hhost : s.host = .bufRead i :: rest) (hi : s.cfg.bufSize ≤ i) :
    step s = .refused (.bufferIndex i) := by
  rw [step_of_host hok hhost]
  exact if_neg (Nat.not_lt.2 hi)

end

/-- Settles O43: the fields are the bits of the word, read from the bottom. -/
theorem statusWordFields : Obligations.StatusWordFields := by
  unfold Obligations.StatusWordFields
  refine ⟨fun s => ⟨?_, ?_, ?_, ?_⟩, State.construct_status _ _,
    fun s w rest hok hhost => step_of_regWrite_ignored hok hhost (r := .status) rfl (by decide)⟩
  · have hrc : bitField s.status 0 2 = s.rc.toBits :=
      bitField_eq_of_getLsbD fun i hi => by rw [State.status_getLsbD, Nat.zero_add, if_pos hi]
    rw [hrc]
    cases s.rc with
    | ok | nack | timeout | illegal => rfl
  · rw [State.status_getLsbD]; rfl
  · rw [State.status_getLsbD]
    cases s.ph with
    | idle | active => rfl
  · exact bitField_eq_of_getLsbD fun i hi => by
      rw [State.status_getLsbD, if_neg (by omega), if_neg (by omega), if_neg (by omega), BitVec.getLsbD_zero]

/-- Settles O44: each access by its own step. -/
theorem hostAccessSideEffects : Obligations.HostAccessSideEffects := by
  unfold Obligations.HostAccessSideEffects
  refine fun s rest hok => ⟨fun off hoff hhost => ?_, fun off hoff w hhost => ?_, fun i v hhost hi => ?_,
    fun i v hhost hi hv => step_of_bufRead hok hhost hi hv⟩
  · have hreg : ∀ off ∈ [0, 4, 8, 12], (hostReg off 32).isSome = true := by decide
    obtain ⟨r, hr⟩ := Option.isSome_iff_exists.1 (hreg off hoff)
    exact ⟨_, step_of_regRead hok hhost hr⟩
  · have hreg : ∀ off ∈ [4, 8, 12], (hostReg off 32).isSome = true ∧ hostReg off 32 ≠ some .cmd := by decide
    obtain ⟨hsome, hne⟩ := hreg off hoff
    obtain ⟨r, hr⟩ := Option.isSome_iff_exists.1 hsome
    exact step_of_regWrite_ignored hok hhost hr fun hcmd => hne (hcmd ▸ hr)
  · exact ⟨_, step_of_bufWrite hok hhost hi, fun a => Memory.read_write s.buf i a v⟩

/-- Settles O45: the map's four offsets, and none elsewhere. -/
theorem hostRegisterMap : Obligations.HostRegisterMap := by
  unfold Obligations.HostRegisterMap
  exact fun s rest hok =>
    ⟨fun hhost => step_of_regRead hok hhost (r := .cmd) rfl, fun hhost => step_of_regRead hok hhost (r := .status) rfl,
      fun hhost => step_of_regRead hok hhost (r := .rxdata) rfl,
      fun hhost => step_of_regRead hok hhost (r := .delay) rfl,
      fun off width hoff => ⟨fun hhost => step_of_regRead_refused hok hhost (hostReg_eq_none hoff),
        fun w hhost => step_of_regWrite_refused hok hhost (hostReg_eq_none hoff)⟩⟩

/-- Settles O46: the written byte is what the buffer then holds. -/
theorem hostBufferReadBack : Obligations.HostBufferReadBack := by
  unfold Obligations.HostBufferReadBack
  refine fun s i v rest hok => ⟨fun hhost hi => ?_, fun hhost hi hv => step_of_bufRead_unwritten hok hhost hi hv,
    fun hhost hi => step_of_bufRead_refused hok hhost hi, fun hhost hi => step_of_bufWrite_refused hok hhost hi⟩
  have hback : Memory.read (Memory.write s.buf i v) i = some v := by rw [Memory.read_write, if_pos rfl]
  have hread := step_of_bufRead (s := { s with host := .bufRead i :: rest, buf := Memory.write s.buf i v }) hok rfl hi
    hback
  exact ⟨_, _, step_of_bufWrite hok hhost hi, hread, rfl, rfl⟩

end Sys2Proof.Machine
end

section
/-! PROOFS. The events of a byte and of a condition, counted (41_byte_transfer.md R147), and the least time their delays
take (70_reset_and_hazards.md R271). -/

namespace Sys2Proof.Machine

theorem historyMicros_append (es fs : List Event) : historyMicros (es ++ fs) = historyMicros es + historyMicros fs := by
  simp [historyMicros]

/-- `es` has `len` events: `delays` half-cycle delays of `us` microseconds, `scl` samples of SCL, `sda` samples of SDA,
and writes. -/
structure Tally (us : Half) (es : List Event) (len delays scl sda : Nat) : Prop where
  length_eq : es.length = len
  countDelays : es.countP Event.isDelay = delays
  countScl : es.countP (Event.isSample .scl) = scl
  countSda : es.countP (Event.isSample .sda) = sda
  micros : historyMicros es = delays * us.toNat

section
variable {us : Half}

theorem Tally.nil : Tally us [] 0 0 0 0 := ⟨rfl, rfl, rfl, rfl, (Nat.zero_mul _).symm⟩

theorem Tally.append {es fs : List Event} {a b c d a' b' c' d' : Nat} (h : Tally us es a b c d)
    (k : Tally us fs a' b' c' d') : Tally us (es ++ fs) (a + a') (b + b') (c + c') (d + d') :=
  ⟨by rw [List.length_append, h.length_eq, k.length_eq], by rw [List.countP_append, h.countDelays, k.countDelays],
    by rw [List.countP_append, h.countScl, k.countScl], by rw [List.countP_append, h.countSda, k.countSda],
    by rw [historyMicros_append, h.micros, k.micros, Nat.add_mul]⟩

theorem Tally.cast {es : List Event} {a b c d a' b' c' d' : Nat} (h : Tally us es a b c d) (ha : a = a') (hb : b = b')
    (hc : c = c') (hd : d = d') : Tally us es a' b' c' d' := ha ▸ hb ▸ hc ▸ hd ▸ h

theorem tally_delay : Tally us [.delay us] 1 1 0 0 := ⟨rfl, rfl, rfl, rfl, by simp [historyMicros, Event.micros]⟩

theorem tally_sampleSda (v : Bool) : Tally us [.read .sda v] 1 0 0 1 :=
  ⟨rfl, rfl, rfl, rfl, (Nat.zero_mul _).symm⟩

theorem tally_low (l : Line) : Tally us (lowEvents l) 2 0 0 0 := ⟨rfl, rfl, rfl, rfl, (Nat.zero_mul _).symm⟩

theorem tally_release (l : Line) : Tally us (releaseEvents l) 2 0 0 0 := ⟨rfl, rfl, rfl, rfl, (Nat.zero_mul _).symm⟩

theorem tally_sda (b : Bool) : Tally us (sdaEvents b) 2 0 0 0 := by
  cases b with
  | false => exact tally_low .sda
  | true => exact tally_release .sda

theorem tally_sampleScl (k : Nat) (v : Bool) : Tally us (List.replicate k (.read .scl v)) k 0 k 0 := by
  induction k with
  | zero => exact .nil
  | succ k ih =>
    have hone : Tally us [.read .scl v] 1 0 1 0 := ⟨rfl, rfl, rfl, rfl, (Nat.zero_mul _).symm⟩
    exact (hone.append ih).cast (Nat.add_comm 1 k) rfl (Nat.add_comm 1 k) rfl

/-- R140: a wait is samples of SCL. -/
theorem IsWait.tally {n : Nat} {w : List Event} {to' : Bool} (h : IsWait n w to') :
    Tally us w w.length 0 w.length 0 := by
  obtain ⟨k, -, rfl, -⟩ | ⟨rfl, -⟩ := h
  · exact ((tally_sampleScl k false).append (tally_sampleScl 1 true)).cast (by simp) rfl (by simp) rfl
  · exact (tally_sampleScl n false).cast (by simp) rfl (by simp) rfl

section
variable {n : Nat} {w : List Event} {to' : Bool} (hw : IsWait n w to')
include hw

theorem tally_raise : Tally us (raiseEvents us w) (3 + w.length) 1 w.length 0 :=
  (((tally_release .scl).append hw.tally).append tally_delay).cast (by omega) rfl (by omega) rfl

theorem tally_writtenBit (b : Bool) : Tally us (writtenBit us b w) (9 + w.length) 3 w.length 0 :=
  (((((tally_low .scl).append tally_delay).append (tally_sda b)).append tally_delay).append (tally_raise hw)).cast
    (by omega) rfl (by omega) rfl

theorem tally_ackSlot (ack : Bool) : Tally us (ackSlot us ack w) (11 + w.length) 2 w.length 1 :=
  ((((((tally_low .scl).append (tally_release .sda)).append tally_delay).append (tally_raise hw)).append
    (tally_sampleSda ack)).append (tally_low .scl)).cast (by omega) rfl (by omega) rfl

theorem tally_readBit (b : Bool) : Tally us (readBit us b w) (7 + w.length) 2 w.length 1 :=
  ((((tally_low .scl).append tally_delay).append (tally_raise hw)).append (tally_sampleSda b)).cast
    (by omega) rfl (by omega) rfl

theorem tally_ninthClock (a : Bool) : Tally us (ninthClock us a w) (10 + w.length) 2 w.length 0 :=
  (((((tally_low .scl).append (tally_sda a)).append tally_delay).append (tally_raise hw)).append
    (tally_low .scl)).cast (by omega) rfl (by omega) rfl

theorem tally_rstart : Tally us (rstartEvents us w) (11 + w.length) 3 w.length 0 :=
  ((((((tally_release .sda).append tally_delay).append (tally_raise hw)).append (tally_low .sda)).append
    tally_delay).append (tally_low .scl)).cast (by omega) rfl (by omega) rfl

theorem tally_stop : Tally us (stopEvents us w) (9 + w.length) 3 w.length 0 :=
  (((((tally_low .sda).append tally_delay).append (tally_raise hw)).append (tally_release .sda)).append
    tally_delay).cast (by omega) rfl (by omega) rfl

end

theorem tally_start : Tally us (startEvents us) 5 1 0 0 :=
  ((tally_low .sda).append tally_delay).append (tally_low .scl)

/-- The lengths of `n` waits with `polls` samples at most. -/
def WaitLengths (polls n : Nat) (ks : List Nat) : Prop :=
  ks.length = n ∧ ∀ k ∈ ks, ∃ w to', IsWait polls w to' ∧ w.length = k

theorem WaitLengths.nil (polls : Nat) : WaitLengths polls 0 [] := ⟨rfl, nofun⟩

theorem WaitLengths.cons {polls n : Nat} {w : List Event} {to' : Bool} {ks : List Nat} (hw : IsWait polls w to')
    (h : WaitLengths polls n ks) : WaitLengths polls (n + 1) (w.length :: ks) :=
  ⟨by rw [List.length_cons, h.1], List.forall_mem_cons.2 ⟨⟨w, to', hw, rfl⟩, h.2⟩⟩

theorem WaitLengths.bounds {polls n : Nat} {ks : List Nat} (hpolls : 0 < polls) (h : WaitLengths polls n ks) :
    ∀ k ∈ ks, 1 ≤ k ∧ k ≤ polls := by
  intro k hk
  obtain ⟨w, to', hw, rfl⟩ := h.2 k hk
  exact hw.length_bounds hpolls

section
variable {polls : Nat}

theorem BitsSent.tally {d : Byte} {n : Nat} {es : List Event} {to' : Bool} (h : BitsSent us polls d n es to') :
    ∃ ks, WaitLengths polls n ks ∧ Tally us es (9 * n + ks.sum) (3 * n) ks.sum 0 := by
  induction n generalizing es to' with
  | zero =>
    obtain ⟨rfl, -⟩ := h
    exact ⟨[], .nil polls, .nil⟩
  | succ n ih =>
    obtain ⟨w, tw, rest, tr, hw, hrest, rfl, -⟩ := h
    obtain ⟨ks, hks, htally⟩ := ih hrest
    have hsum : (w.length :: ks).sum = w.length + ks.sum := List.sum_cons
    exact ⟨w.length :: ks, .cons hw hks, ((tally_writtenBit hw _).append htally).cast
      (by omega) (by omega) (by omega) (by omega)⟩

/-- R147: a written byte. -/
theorem ByteSent.tally {d : Byte} {ack : Bool} {es : List Event} {to' : Bool} (h : ByteSent us polls d ack es to') :
    ∃ ks, WaitLengths polls 9 ks ∧ Tally us es (83 + ks.sum) 26 ks.sum 1 := by
  obtain ⟨bits, tb, w, tw, hbits, hw, rfl, -⟩ := h
  obtain ⟨ks, hks, htally⟩ := hbits.tally
  have hsum : (w.length :: ks).sum = w.length + ks.sum := List.sum_cons
  exact ⟨w.length :: ks, .cons hw hks, (htally.append (tally_ackSlot hw ack)).cast
      (by omega) (by omega) (by omega) (by omega)⟩

theorem BitsRead.tally {v : Byte} {n : Nat} {es : List Event} {to' : Bool} (h : BitsRead us polls v n es to') :
    ∃ ks, WaitLengths polls n ks ∧ Tally us es (7 * n + ks.sum) (2 * n) ks.sum n := by
  induction n generalizing es to' with
  | zero =>
    obtain ⟨rfl, -⟩ := h
    exact ⟨[], .nil polls, .nil⟩
  | succ n ih =>
    obtain ⟨w, tw, rest, tr, hw, hrest, rfl, -⟩ := h
    obtain ⟨ks, hks, htally⟩ := ih hrest
    have hsum : (w.length :: ks).sum = w.length + ks.sum := List.sum_cons
    exact ⟨w.length :: ks, .cons hw hks, ((tally_readBit hw _).append htally).cast
      (by omega) (by omega) (by omega) (by omega)⟩

/-- R147: a read byte. -/
theorem ByteRead.tally {a : Ack} {v : Byte} {es : List Event} {to' : Bool} (h : ByteRead us polls a v es to') :
    ∃ ks, WaitLengths polls 9 ks ∧ Tally us es (68 + ks.sum) 18 ks.sum 8 := by
  obtain ⟨bits, tb, w, tw, hbits, hw, rfl, -⟩ := h
  obtain ⟨ks, hks, htally⟩ := hbits.tally
  have hsum : (w.length :: ks).sum = w.length + ks.sum := List.sum_cons
  exact ⟨w.length :: ks, .cons hw hks,
    (((tally_release .sda).append htally).append (tally_ninthClock hw (ackLevel a))).cast
      (by omega) (by omega) (by omega) (by omega)⟩

end
end

/-- Settles O27: the counts of the two byte sequences. -/
theorem byteEventCounts : Obligations.ByteEventCounts := by
  unfold Obligations.ByteEventCounts
  refine fun s hactive hpolls => ⟨fun d => ?_, fun a => ?_⟩
  · obtain ⟨t, es, ack, to', hexec, hsent, hhist, -⟩ := writeByteCompletes d s hactive
    obtain ⟨ks, hks, htally⟩ := hsent.tally
    exact ⟨t, es, ks, hexec, hhist, hks.1, hks.bounds hpolls, htally.length_eq, htally.countDelays,
      htally.countScl, htally.countSda⟩
  · obtain ⟨t, es, v, to', hexec, hread, hhist, -⟩ := readByteCompletes a s hactive
    obtain ⟨ks, hks, htally⟩ := hread.tally
    exact ⟨t, es, ks, hexec, hhist, hks.1, hks.bounds hpolls, htally.length_eq, htally.countDelays,
      htally.countScl, htally.countSda⟩

/-- The time a command adds is that of the events it was shown to add. -/
theorem micros_of_answer {i : Instr} {s t u : State} {us : Half} {es : List Event} {len delays scl sda : Nat}
    (h : exec i s = .next t) (hu : exec i s = .next u) (hhist : u.history = s.history ++ es)
    (htally : Tally us es len delays scl sda) :
    historyMicros t.history = historyMicros s.history + delays * us.toNat := by
  obtain rfl := next_unique h hu
  rw [hhist, historyMicros_append, htally.micros]

/-- Settles O28: whatever the waits took, the delays are those of the sequence. -/
theorem halfCyclesPerCommand : Obligations.HalfCyclesPerCommand := by
  unfold Obligations.HalfCyclesPerCommand
  refine fun s => ⟨fun d t hactive h => ?_, fun a t hactive h => ?_, fun t hidle h => ?_, fun t hactive h => ?_,
    fun t hactive h => ?_⟩
  · obtain ⟨u, es, ack, to', hu, hsent, hhist, -⟩ := writeByteCompletes d s hactive
    obtain ⟨ks, -, htally⟩ := hsent.tally
    exact micros_of_answer h hu hhist htally
  · obtain ⟨u, es, v, to', hu, hread, hhist, -⟩ := readByteCompletes a s hactive
    obtain ⟨ks, -, htally⟩ := hread.tally
    exact micros_of_answer h hu hhist htally
  · obtain ⟨u, hu, hhist, -⟩ := startCompletes s hidle
    rw [micros_of_answer h hu hhist tally_start, Nat.one_mul]
  · obtain ⟨u, w, tw, hu, hw, hhist, -⟩ := rstartCompletes s hactive
    exact micros_of_answer h hu hhist (tally_rstart hw)
  · obtain ⟨u, w, tw, hu, hw, hhist, -⟩ := stopCompletes s hactive
    exact micros_of_answer h hu hhist (tally_stop hw)

end Sys2Proof.Machine
end

section
/-! PROOFS. The byte commands where the environment's moves are known (41_byte_transfer.md R141, R142): what a written
byte reports of its ninth clock, and the byte a read returns. -/

namespace Sys2Proof.Machine

/-- WRITE_BYTE where the holds are `x` through the eight bits, a slave makes the changes `m` just after event 84, and
SCL is free: the acknowledgment is the hold of SDA then. -/
theorem exec_writeByte_follows (d : Byte) {s : State} {x : PerLine Bool} {m : List (PerLine Bool)}
    (hactive : s.ph = .active) (hpolls : 0 < s.cfg.stretchPolls)
    (h : s.bus.Follows x (List.replicate 84 [] ++ [m] ++ List.replicate 7 [])) (hx : x.scl = false)
    (hm : (lastHold x m).scl = false) :
    ∃ t, exec (.writeByte d) s = .next t ∧ t.rc = (if (lastHold x m).sda then .ok else .nack) ∧
      t.rxdata = (if (lastHold x m).sda then 0#8 else 1#8) ∧ t.timedOut = false := by
  rw [← List.append_nil (List.replicate 84 [] ++ [m] ++ List.replicate 7 [])] at h
  obtain ⟨htimeout, hack⟩ := writeByteCore_follows (s := clearTimeout s) d h hx hm hpolls
  obtain ⟨es, -, hrun⟩ := writeByteCore_runs d (clearTimeout s)
  rw [exec_writeByte d hactive]
  generalize writeByteCore d (clearTimeout s) = w at *
  rw [htimeout] at hrun ⊢
  refine ⟨_, rfl, ?_, ?_, hrun.timedOut⟩
  · rw [finish_rc, byteResult_eq, hack]
    cases (lastHold x m).sda with
    | false | true => rfl
  · show byteOfLevel w.ack = _
    rw [byteOfLevel_eq, hack]
    cases (lastHold x m).sda with
    | false | true => rfl

/-- Settles O51: SDA is free, pulled low by the slave, or held, when the ninth clock samples it. -/
theorem writeByteReportsTheNinthClock : Obligations.WriteByteReportsTheNinthClock := by
  unfold Obligations.WriteByteReportsTheNinthClock
  refine fun d s hactive hpolls => ⟨fun ⟨hext, hplan⟩ => ?_, fun ⟨hext, hplan⟩ => ?_, fun ⟨hext, hplan⟩ => ?_⟩
  · exact exec_writeByte_follows (m := []) d hactive hpolls (Bus.follows_of_take hext hplan) rfl rfl
  · exact exec_writeByte_follows d hactive hpolls (Bus.follows_of_take hext hplan) rfl rfl
  · exact exec_writeByte_follows (m := []) d hactive hpolls (Bus.follows_of_take hext hplan) rfl rfl

/-- A read byte whose eight bits are `v` with no timeout, SCL being free in the ninth clock. -/
theorem readByteCore_of_bits (a : Ack) {s : State} {v : Byte} {y : PerLine Bool} {m : List (PerLine Bool)}
    (hpolls : 0 < s.cfg.stretchPolls) (hv : (recvBits 8 0#8 false (release .sda s)).value = v)
    (ht : (recvBits 8 0#8 false (release .sda s)).timedOut = false)
    (h : (recvBits 8 0#8 false (release .sda s)).state.bus.Follows y ([[], [], m] ++ List.replicate 8 []))
    (hm : (lastHold y m).scl = false) : (readByteCore a s).value = v ∧ (readByteCore a s).timedOut = false := by
  obtain ⟨_, _, _, _, hbits⟩ := recvBits_runs 8 0#8 false (release .sda s) (Nat.le_refl 8)
  simp only [readByteCore]
  generalize recvBits 8 0#8 false (release .sda s) = b at *
  have hpolls' : 0 < b.state.cfg.stretchPolls := by rw [hbits.cfg]; exact hpolls
  rw [← List.append_nil ([[], [], m] ++ List.replicate 8 [])] at h
  exact ⟨hv, by rw [ht, ninth_follows (ackLevel a) h hm hpolls']; rfl⟩

/-- READ_BYTE where the byte read is known. -/
theorem exec_readByte_of_core (a : Ack) {s : State} {v : Byte} (hactive : s.ph = .active)
    (h : (readByteCore a (clearTimeout s)).value = v ∧ (readByteCore a (clearTimeout s)).timedOut = false) :
    ∃ t, exec (.readByte a) s = .next t ∧ t.rc = .ok ∧ t.rxdata = v ∧ t.timedOut = false := by
  obtain ⟨es, -, hrun⟩ := readByteCore_runs a (clearTimeout s)
  rw [exec_readByte a hactive]
  generalize readByteCore a (clearTimeout s) = r at *
  obtain ⟨hvalue, htimeout⟩ := h
  rw [htimeout] at hrun ⊢
  exact ⟨_, rfl, rfl, hvalue, hrun.timedOut⟩

/-- READ_BYTE where the holds do not change and SCL is free: every bit is the level they leave SDA at. -/
theorem exec_readByte_quiet (a : Ack) {s : State} {x : PerLine Bool} {v : Byte} (hactive : s.ph = .active)
    (hpolls : 0 < s.cfg.stretchPolls) (h : s.bus.Follows x (List.replicate 77 [])) (hx : x.scl = false)
    (hv : ∀ i < 8, v.getLsbD i = !x.sda) :
    ∃ t, exec (.readByte a) s = .next t ∧ t.rc = .ok ∧ t.rxdata = v ∧ t.timedOut = false := by
  have hfree : (release .sda (clearTimeout s)).bus.Follows x (List.replicate (8 * 8) [] ++ List.replicate 11 []) :=
    release_follows .sda h
  obtain ⟨hvalue, ht, hrest⟩ := recvBits_quiet 8 0#8 hfree (fun i hi hi8 => absurd hi8 (Nat.not_lt.2 hi))
    (Nat.le_refl 8) hx (by simp [PerLine.set]) hpolls
  exact exec_readByte_of_core a hactive (readByteCore_of_bits a (m := []) hpolls
    (BitVec.eq_of_getLsbD_eq fun i hi => (hvalue i hi).trans (hv i hi).symm) ht hrest hx)

/-- READ_BYTE where a slave sends `v`, changing SDA just after SCL falls. -/
theorem exec_readByte_sent (a : Ack) {s : State} {v : Byte} (hactive : s.ph = .active)
    (hpolls : 0 < s.cfg.stretchPolls) (h : s.bus.Follows { sda := false, scl := false } (sendScript v)) :
    ∃ t, exec (.readByte a) s = .next t ∧ t.rc = .ok ∧ t.rxdata = v ∧ t.timedOut = false := by
  have hfree : (release .sda (clearTimeout s)).bus.Follows { sda := false, scl := false }
      ([[], []] ++ sendBitsScript v 8 ++ ([[{ sda := false, scl := false }]] ++ List.replicate 8 [])) :=
    release_follows .sda h
  obtain ⟨hvalue, ht, y, hy, hrest⟩ := recvBits_sent 8 0#8 hfree
    (fun i hi => by rw [BitVec.getLsbD_of_ge _ _ hi, BitVec.getLsbD_of_ge _ _ hi]) (Nat.le_refl 8) rfl
    (by simp [PerLine.set]) hpolls
  exact exec_readByte_of_core a hactive (readByteCore_of_bits a hpolls hvalue ht hrest rfl)

/-- Settles O52: with the holds constant all eight samples are alike; with a slave sending, each is its bit. -/
theorem readByteReturnsWhatIsSent : Obligations.ReadByteReturnsWhatIsSent := by
  unfold Obligations.ReadByteReturnsWhatIsSent
  refine fun a s hactive hpolls => ⟨fun ⟨hext, hplan⟩ => ?_, fun ⟨hext, hplan⟩ => ?_, fun v ⟨hext, hplan⟩ => ?_⟩
  · exact exec_readByte_quiet a hactive hpolls (Bus.follows_of_take hext hplan) rfl (by decide)
  · exact exec_readByte_quiet a hactive hpolls (Bus.follows_of_take hext hplan) rfl (by decide)
  · exact exec_readByte_sent a hactive hpolls (Bus.follows_of_take hext hplan)

end Sys2Proof.Machine
end

section
/-! PROOFS. The quiet bus (95_test_vectors.md section 0): no line held and no gap with a change. There a procedure's
events are fixed, every wait being one sample, and with the latches they fix every level of the wire trace. -/

namespace Sys2Proof.Machine

/-- The latches after an event (R110). -/
def latchAfter (k : PerLine Latch) : Event → PerLine Latch
  | .write l f v => k.set l ((k.get l).put f v)
  | .read _ _ => k
  | .delay _ => k

/-- The latches after some events. -/
def latchesAfter (k : PerLine Latch) (es : List Event) : PerLine Latch := es.foldl latchAfter k

/-- Both lines' levels where no line is held. -/
def quietLevels (k : PerLine Latch) : PerLine Bool where
  sda := wiredAnd k.sda false
  scl := wiredAnd k.scl false

/-- The points of the wire trace that some events leave where no line is held. -/
def quietPoints (k : PerLine Latch) : List Event → List Point
  | [] => []
  | e :: es => .event e (quietLevels (latchAfter k e)) :: quietPoints (latchAfter k e) es

theorem latchesAfter_append (k : PerLine Latch) (es fs : List Event) :
    latchesAfter k (es ++ fs) = latchesAfter (latchesAfter k es) fs := List.foldl_append

theorem quietPoints_append (k : PerLine Latch) (es fs : List Event) :
    quietPoints k (es ++ fs) = quietPoints k es ++ quietPoints (latchesAfter k es) fs := by
  induction es generalizing k with
  | nil => rfl
  | cons e es ih => simp only [List.cons_append, quietPoints, ih]; rfl

theorem quietPoints_events (k : PerLine Latch) (es : List Event) :
    (quietPoints k es).filterMap Point.event? = es := by
  induction es generalizing k with
  | nil => rfl
  | cons e es ih => simp only [quietPoints, List.filterMap_cons, Point.event?_event, ih]

/-- No line is held, and the plan leaves the next `n` gaps empty. -/
def Bus.Quiet (n : Nat) (b : Bus) : Prop := b.Follows { sda := false, scl := false } (List.replicate n [])

theorem State.QuietFor.quiet {n : Nat} {s : State} (h : s.QuietFor n) : s.bus.Quiet n :=
  Bus.follows_of_take h.1 (by rw [List.length_replicate]; exact h.2)

theorem Bus.Quiet.gap {n : Nat} {b : Bus} (h : b.Quiet (n + 1)) : b.gap.Quiet n ∧ b.gap.trace = b.trace := by
  refine ⟨Bus.Follows.gap h, ?_⟩
  obtain ⟨-, rest, hplan⟩ := h
  simp [Bus.gap, Bus.moves, ← hplan, List.replicate_succ, envPoints]

/-- R28: without a hold no level is drawn. -/
theorem levelsAt_quiet (k : PerLine Latch) (t : Nat) :
    levelsAt k { sda := false, scl := false } t = quietLevels k := by
  have hfree : ∀ l, ¬ Contended (k.get l) (PerLine.get { sda := false, scl := false } l) := by
    rintro (_ | _) ⟨-, -, h⟩ <;> nomatch h
  rw [levelsAt, levelAt_wiredAnd (hfree .sda), levelAt_wiredAnd (hfree .scl)]
  rfl

/-- Over gaps that are quiet, one for each of the events `es`, the lines go from `b` to `c` by those events alone. -/
def Bus.Draws (b c : Bus) (es : List Event) : Prop :=
  ∀ m, b.Quiet (es.length + m) →
    c.trace = b.trace ++ quietPoints b.latch es ∧ c.latch = latchesAfter b.latch es ∧ c.Quiet m

theorem Bus.Draws.trans {a b c : Bus} {es fs : List Event} (h : a.Draws b es) (k : b.Draws c fs) :
    a.Draws c (es ++ fs) := by
  intro m hq
  rw [List.length_append, Nat.add_assoc] at hq
  obtain ⟨htrace, hlatch, hq'⟩ := h _ hq
  obtain ⟨htrace', hlatch', hq''⟩ := k _ hq'
  refine ⟨?_, ?_, hq''⟩
  · rw [htrace', htrace, hlatch, quietPoints_append, List.append_assoc]
  · rw [hlatch', hlatch, latchesAfter_append]

theorem Bus.Draws.refl (b : Bus) : b.Draws b [] :=
  fun m hq => ⟨(List.append_nil _).symm, rfl, by rwa [List.length_nil, Nat.zero_add] at hq⟩

/-- A micro-step whose event leaves the latches of `c`. -/
theorem Bus.record_draws {b c : Bus} {e : Event} (hlatch : c.latch = latchAfter b.latch e) (hext : c.ext = b.gap.ext)
    (htrace : c.trace = b.gap.trace) (hplan : c.plan = b.gap.plan) : b.Draws (c.record e) [e] := by
  intro m hq
  rw [List.length_singleton, Nat.add_comm] at hq
  obtain ⟨⟨hfree, hrest⟩, hsame⟩ := hq.gap
  refine ⟨?_, hlatch, hext.trans hfree, by rw [Bus.record_plan, hplan]; exact hrest⟩
  show c.trace ++ [.event e (levelsAt c.latch c.ext (c.instant + 1))] = _
  rw [htrace, hsame, hext, hfree, levelsAt_quiet, hlatch]
  rfl

theorem Bus.gpioWrite_draws (l : Line) (f : LatchBit) (v : Bool) (b : Bus) :
    b.Draws (b.gpioWrite l f v) [.write l f v] :=
  Bus.record_draws rfl rfl rfl rfl

/-- R111: a sample where no line is held. -/
theorem Bus.gpioRead_draws (l : Line) (b : Bus) :
    b.Draws (b.gpioRead l).2 [.read l (wiredAnd (b.latch.get l) false)] := by
  intro m hq
  have hlevel : b.gap.level l = wiredAnd (b.latch.get l) false := by
    have hq' := hq
    rw [List.length_singleton, Nat.add_comm] at hq'
    rw [Bus.level, hq'.gap.1.1, ← levelsAt_get, levelsAt_quiet]
    cases l <;> rfl
  rw [Bus.gpioRead, hlevel]
  exact Bus.record_draws (b := b) (c := b.gap) (e := .read l _) rfl rfl rfl rfl m hq

theorem driveLow_draws (l : Line) (s : State) : s.bus.Draws (driveLow l s).bus (lowEvents l) :=
  (Bus.gpioWrite_draws l .dir true _).trans (Bus.gpioWrite_draws l .out false _)

theorem release_draws (l : Line) (s : State) : s.bus.Draws (release l s).bus (releaseEvents l) :=
  (Bus.gpioWrite_draws l .dir false _).trans (Bus.gpioWrite_draws l .out true _)

theorem halfDelay_draws (s : State) : s.bus.Draws (halfDelay s).bus [.delay s.delayUs] :=
  Bus.record_draws rfl rfl rfl rfl

theorem setSda_draws (b : Bool) (s : State) : s.bus.Draws (setSda b s).bus (sdaEvents b) := by
  cases b with
  | false => exact driveLow_draws .sda s
  | true => exact release_draws .sda s

/-- A sample of a line the engine has released, where no line is held. -/
theorem sample_draws {l : Line} {s : State} (hl : (s.bus.latch.get l).dir = false) :
    s.bus.Draws (sample l s).2.bus [.read l true] := by
  have h := Bus.gpioRead_draws l s.bus
  rwa [show wiredAnd (s.bus.latch.get l) false = true by simp [wiredAnd, hl]] at h

/-- R140: a wait whose first sample is 1 is that sample. -/
theorem waitSclHigh_of_high {s : State} (hpolls : 0 < s.cfg.stretchPolls) (h : (sample .scl s).1 = true) :
    waitSclHigh s = (false, (sample .scl s).2) := by
  obtain ⟨n, hn⟩ := Nat.exists_eq_succ_of_ne_zero (Nat.pos_iff_ne_zero.1 hpolls)
  rw [waitSclHigh, hn, waitSclHighFor, if_pos h]

/-- The wait of a quiet bus. -/
def promptWait : List Event := [.read .scl true]

theorem raiseScl_draws {s : State} (hpolls : 0 < s.cfg.stretchPolls) :
    s.bus.Draws (raiseScl s).2.bus (raiseEvents s.delayUs promptWait) := by
  intro m hq
  have hfree : ((release .scl s).bus.latch.get .scl).dir = false := by simp [PerLine.set]
  have hdraws := ((release_draws .scl s).trans (sample_draws hfree)).trans (halfDelay_draws _)
  have hlen : (raiseEvents s.delayUs promptWait).length + m = (releaseEvents .scl).length + (m + 2) := by
    rw [raiseEvents_length, promptWait, List.length_singleton, releaseEvents_length]
    omega
  have hreleased : (release .scl s).bus.Quiet (m + 2) := (release_draws .scl s _ (hlen ▸ hq)).2.2
  have hhigh : (sample .scl (release .scl s)).1 = true := by rw [sample_released (l := .scl) hreleased hfree]; rfl
  rw [raiseScl, waitSclHigh_of_high (s := release .scl s) hpolls hhigh]
  exact hdraws m hq

theorem sendBit_draws (b : Bool) {s : State} (hpolls : 0 < s.cfg.stretchPolls) :
    s.bus.Draws (sendBit b s).2.bus (writtenBit s.delayUs b promptWait) := by
  have hsda := setSda_runs b (halfDelay (driveLow .scl s))
  have hraise := raiseScl_draws (s := halfDelay (setSda b (halfDelay (driveLow .scl s))))
    (by rw [halfDelay_cfg, hsda.cfg]; exact hpolls)
  have hdelay := halfDelay_draws (setSda b (halfDelay (driveLow .scl s)))
  rw [halfDelay_delayUs, hsda.delayUs] at hraise
  rw [hsda.delayUs] at hdelay
  exact ((((driveLow_draws .scl s).trans (halfDelay_draws _)).trans (setSda_draws b _)).trans hdelay).trans hraise

/-- The events of bits `n-1` down to 0 of `d` on a quiet bus. -/
def promptBits (us : Half) (d : Byte) : Nat → List Event
  | 0 => []
  | n + 1 => writtenBit us (d.getLsbD n) promptWait ++ promptBits us d n

/-- The events of a written byte on a quiet bus, which nothing acknowledges. -/
def promptByte (us : Half) (d : Byte) : List Event := promptBits us d 8 ++ ackSlot us true promptWait

theorem sendBits_draws (d : Byte) (n : Nat) (t : Bool) {s : State} (hpolls : 0 < s.cfg.stretchPolls) :
    s.bus.Draws (sendBits d n t s).2.bus (promptBits s.delayUs d n) := by
  induction n generalizing t s with
  | zero => exact .refl s.bus
  | succ n ih =>
    obtain ⟨_, _, hrun⟩ := sendBit_runs (d.getLsbD n) s
    have hrest := ih (t || (sendBit (d.getLsbD n) s).1) (by rw [hrun.cfg]; exact hpolls)
    rw [hrun.delayUs] at hrest
    exact (sendBit_draws _ hpolls).trans hrest

theorem writeByteCore_draws (d : Byte) {s : State} (hpolls : 0 < s.cfg.stretchPolls) :
    s.bus.Draws (writeByteCore d s).state.bus (promptByte s.delayUs d) := by
  obtain ⟨_, _, _, _, hrun⟩ := sendBits_runs d 8 false s
  have hbits := sendBits_draws d 8 false hpolls
  simp only [writeByteCore]
  generalize (sendBits d 8 false s).2 = b at *
  have hraise := raiseScl_draws (s := halfDelay (release .sda (driveLow .scl b)))
    (by rw [← hrun.cfg] at hpolls; exact hpolls)
  have hdelay := halfDelay_draws (release .sda (driveLow .scl b))
  rw [halfDelay_delayUs, release_delayUs, driveLow_delayUs, hrun.delayUs] at hraise
  rw [release_delayUs, driveLow_delayUs, hrun.delayUs] at hdelay
  have hsample := sample_draws (l := .sda) (s := (raiseScl (halfDelay (release .sda (driveLow .scl b)))).2)
    (by simp [PerLine.set])
  have hack := (((((driveLow_draws .scl b).trans (release_draws .sda _)).trans hdelay).trans hraise).trans
    hsample).trans (driveLow_draws .scl _)
  exact hbits.trans hack

/-- R180. -/
theorem startSeq_draws (s : State) : s.bus.Draws (startSeq s).bus (startEvents s.delayUs) :=
  ((driveLow_draws .sda s).trans (halfDelay_draws _)).trans (driveLow_draws .scl _)

/-- R181. -/
theorem rstartSeq_draws {s : State} (hpolls : 0 < s.cfg.stretchPolls) :
    s.bus.Draws (rstartSeq s).2.bus (rstartEvents s.delayUs promptWait) := by
  obtain ⟨_, _, hrun⟩ := raiseScl_runs (halfDelay (release .sda s))
  have hraise := raiseScl_draws (s := halfDelay (release .sda s)) hpolls
  simp only [rstartSeq]
  generalize (raiseScl (halfDelay (release .sda s))).2 = b at *
  have hdelay := halfDelay_draws (driveLow .sda b)
  rw [driveLow_delayUs, hrun.delayUs] at hdelay
  exact (((((release_draws .sda s).trans (halfDelay_draws _)).trans hraise).trans (driveLow_draws .sda b)).trans
    hdelay).trans (driveLow_draws .scl _)

/-- R182. -/
theorem stopSeq_draws {s : State} (hpolls : 0 < s.cfg.stretchPolls) :
    s.bus.Draws (stopSeq s).2.bus (stopEvents s.delayUs promptWait) := by
  obtain ⟨_, _, hrun⟩ := raiseScl_runs (halfDelay (driveLow .sda s))
  have hraise := raiseScl_draws (s := halfDelay (driveLow .sda s)) hpolls
  simp only [stopSeq]
  generalize (raiseScl (halfDelay (driveLow .sda s))).2 = b at *
  have hdelay := halfDelay_draws (release .sda b)
  rw [release_delayUs, hrun.delayUs] at hdelay
  exact ((((driveLow_draws .sda s).trans (halfDelay_draws _)).trans hraise).trans (release_draws .sda b)).trans hdelay

theorem promptWait_isWait : IsWait 1 promptWait false := .inl ⟨0, Nat.one_pos, rfl, rfl⟩

theorem promptBits_sent (us : Half) (d : Byte) (n : Nat) : BitsSent us 1 d n (promptBits us d n) false := by
  induction n with
  | zero => exact ⟨rfl, rfl⟩
  | succ n ih => exact ⟨promptWait, false, _, false, promptWait_isWait, ih, rfl, rfl⟩

theorem promptByte_sent (us : Half) (d : Byte) : ByteSent us 1 d true (promptByte us d) false :=
  ⟨_, false, promptWait, false, promptBits_sent us d 8, promptWait_isWait, rfl, rfl⟩

theorem promptByte_length (us : Half) (d : Byte) : (promptByte us d).length = 92 := by
  have h := (promptByte_sent us d).length_bounds Nat.one_pos
  omega

/-- The events of a message that no device answers. -/
def promptMessage (us : Half) (d : Byte) : List Event := startEvents us ++ promptByte us d ++ stopEvents us promptWait

theorem promptMessage_length (us : Half) (d : Byte) : (promptMessage us d).length = 107 := by
  rw [promptMessage, List.length_append, List.length_append, startEvents_length, promptByte_length, stopEvents_length]
  rfl

theorem promptMessage_delays (us : Half) (d : Byte) : (promptMessage us d).countP Event.isDelay = 30 := by
  obtain ⟨ks, -, htally⟩ := (promptByte_sent us d).tally
  exact ((tally_start.append htally).append (tally_stop promptWait_isWait)).countDelays

/-- The history a quiet bus's events leave. -/
theorem Bus.Draws.history {b c : Bus} {es : List Event} (h : b.Draws c es) (hq : b.Quiet es.length) :
    c.history = b.history ++ es := by
  rw [Bus.history, (h 0 hq).1, List.filterMap_append, quietPoints_events]
  rfl

/-- R143, R190: on a quiet bus the address byte ends in `NACK`, with no timeout. -/
theorem openMessage_quiet (addr : Addr7) (rw : Direction) {s : State} (hpolls : 0 < s.cfg.stretchPolls)
    (hq : s.bus.Quiet 107) :
    (openMessage addr rw s).1 = .nack ∧ (openMessage addr rw s).2.timedOut = s.timedOut ∧
      s.bus.Draws (openMessage addr rw s).2.bus
        (startEvents s.delayUs ++ promptByte s.delayUs (addressByte addr rw)) := by
  have hfollows : (startSeq s).bus.Follows { sda := false, scl := false }
      (List.replicate 84 [] ++ [[]] ++ List.replicate 7 [] ++ List.replicate 10 []) := (startSeq_draws s 102 hq).2.2
  obtain ⟨htimeout, hack⟩ := writeByteCore_follows (addressByte addr rw) hfollows rfl rfl hpolls
  obtain ⟨_, -, hrun⟩ := writeByteCore_runs (addressByte addr rw) (startSeq s)
  have hdraws := (startSeq_draws s).trans (writeByteCore_draws (addressByte addr rw) (s := startSeq s) hpolls)
  have hdelay : (startSeq s).delayUs = s.delayUs := rfl
  have hto : (startSeq s).timedOut = s.timedOut := rfl
  simp only [openMessage]
  generalize startSeq s = u at *
  generalize writeByteCore (addressByte addr rw) u = w at *
  rw [hdelay] at hdraws
  refine ⟨?_, ?_, hdraws⟩
  · rw [htimeout, hack]; rfl
  · rw [hrun.timedOut, htimeout, Bool.or_false, hto]

theorem raiseScl_quiet {s : State} {n : Nat} (hpolls : 0 < s.cfg.stretchPolls) (hq : s.bus.Quiet (n + 4)) :
    (raiseScl s).1 = false :=
  (raiseScl_follows hq rfl hpolls).1

theorem stopSeq_quiet {s : State} (hpolls : 0 < s.cfg.stretchPolls) (hq : s.bus.Quiet 10) : (stopSeq s).1 = false :=
  raiseScl_quiet (n := 3) hpolls (((driveLow_draws .sda s).trans (halfDelay_draws _)) 7 hq).2.2

/-- R193: a message answered by the start, the address byte and the stop, on a quiet bus. -/
theorem quietMessage_outcome {addr : Addr7} {rw : Direction} {s : State} {a : Answer}
    (ha : a = .next (closeMessage (openMessage addr rw (clearTimeout s)).1 (openMessage addr rw (clearTimeout s)).2))
    (hpolls : 0 < s.cfg.stretchPolls) (hq : s.bus.Quiet 107) :
    ∃ t es, a = .next t ∧ t.history = s.history ++ es ∧ es.length = 107 ∧ es.countP Event.isDelay = 30 ∧
      t.rc = .nack ∧ t.timedOut = false ∧ t.ph = s.ph ∧ SameBuffer s t := by
  obtain ⟨hnack, hto, hdraws⟩ := openMessage_quiet addr rw (s := clearTimeout s) hpolls hq
  obtain ⟨_, _, _, -, -, hopen⟩ := openMessage_runs addr rw (clearTimeout s)
  generalize openMessage addr rw (clearTimeout s) = o at *
  have hlen : (startEvents s.delayUs ++ promptByte s.delayUs (addressByte addr rw)).length = 97 := by
    rw [List.length_append, startEvents_length, promptByte_length]
  have hpolls' : 0 < o.2.cfg.stretchPolls := by rw [hopen.cfg]; exact hpolls
  have hafter : o.2.bus.Quiet 10 := (hdraws 10 (by rw [clearTimeout_delayUs, hlen]; exact hq)).2.2
  have hstop : (stopSeq o.2).1 = false := stopSeq_quiet hpolls' hafter
  have hstopDraws := stopSeq_draws hpolls'
  obtain ⟨_, -, hrun⟩ := stopSeq_runs o.2
  rw [hopen.delayUs] at hstopDraws
  have hkeep := ((clearTimeout_carries s).trans hopen.carries).trans hrun.carries
  rw [hnack] at ha
  simp only [closeMessage] at ha
  generalize stopSeq o.2 = u at *
  have hall : s.bus.Draws u.2.bus (promptMessage s.delayUs (addressByte addr rw)) := hdraws.trans hstopDraws
  exact ⟨_, promptMessage s.delayUs (addressByte addr rw), ha, hall.history (by rw [promptMessage_length]; exact hq),
    promptMessage_length _ _, promptMessage_delays _ _, rfl,
    by rw [finish_timedOut, hrun.timedOut, hto, hstop]; rfl, hkeep.ph, hkeep.sameBuffer⟩

/-- Settles O34: no device answers the address, so both messages are the start, the address byte and the stop. -/
theorem quietBusMessageIsNack : Obligations.QuietBusMessageIsNack := by
  unfold Obligations.QuietBusMessageIsNack
  intro addr len s hidle hlen hpolls hquiet i hi
  have hq := hquiet.quiet
  have hfailed : ∀ rw, (openMessage addr rw (clearTimeout s)).1 ≠ .ok := fun rw => by
    rw [(openMessage_quiet addr rw (s := clearTimeout s) hpolls hq).1]
    decide
  rw [← hidle]
  simp only [List.mem_cons, List.not_mem_nil, or_false] at hi
  obtain rfl | rfl := hi
  · exact quietMessage_outcome (exec_writeMsg_failed ⟨hidle, hlen⟩ (hfailed .write)) hpolls hq
  · exact quietMessage_outcome (exec_readMsg_failed ⟨hidle, hlen⟩ (hfailed .read)) hpolls hq

end Sys2Proof.Machine
end

section
/-! PROOFS. The symbols a reader finds on a quiet bus (30_encoding.md R100, R104): the reader over the points of each
sequence of events, piece by piece. -/

namespace Sys2Proof.Machine

/-- The reader after some points. -/
def Reader.after (r : Reader) : List Point → Reader
  | [] => r
  | p :: ps => Reader.after (r.step p.levels).1 ps

theorem Reader.after_append (r : Reader) (ps qs : List Point) : r.after (ps ++ qs) = (r.after ps).after qs := by
  induction ps generalizing r with
  | nil => rfl
  | cons p ps ih => exact ih _

theorem wireSymbols_cons (r : Reader) (p : Point) (ps : List Point) :
    wireSymbols r (p :: ps) = (r.step p.levels).2 ++ wireSymbols (r.step p.levels).1 ps := rfl

theorem wireSymbols_append (r : Reader) (ps qs : List Point) :
    wireSymbols r (ps ++ qs) = wireSymbols r ps ++ wireSymbols (r.after ps) qs := by
  induction ps generalizing r with
  | nil => rfl
  | cons p ps ih => rw [List.cons_append, wireSymbols_cons, ih, wireSymbols_cons, List.append_assoc]; rfl

/-- Over the events `es`, from latches `k`, a reader at `r` reads `syms` and comes to `r'`, the latches to `k'`. -/
structure Reads (r : Reader) (k : PerLine Latch) (es : List Event) (r' : Reader) (k' : PerLine Latch)
    (syms : List Symbol) : Prop where
  reader : r.after (quietPoints k es) = r'
  latches : latchesAfter k es = k'
  symbols : wireSymbols r (quietPoints k es) = syms

theorem Reads.append {r r' r'' : Reader} {k k' k'' : PerLine Latch} {es fs : List Event} {xs ys : List Symbol}
    (h : Reads r k es r' k' xs) (g : Reads r' k' fs r'' k'' ys) : Reads r k (es ++ fs) r'' k'' (xs ++ ys) := by
  refine ⟨?_, ?_, ?_⟩
  · rw [quietPoints_append, Reader.after_append, h.reader, h.latches, g.reader]
  · rw [latchesAfter_append, h.latches, g.latches]
  · rw [quietPoints_append, wireSymbols_append, h.symbols, h.reader, h.latches, g.symbols]

/-- The latch of a line the engine drives low (R113). -/
def lowLatch : Latch where
  dir := true
  out := false

/-- The latch of a line the engine has released (R114). -/
def freeLatch : Latch where
  dir := false
  out := true

/-- The latch of SDA while the engine sends `b` (R103). -/
def sdaLatch (b : Bool) : Latch := if b then freeLatch else lowLatch

/-- A reader in the high phase of the clock of bit number `c`, SDA having level `b` in it. -/
def Reader.raised (b : Bool) (c : Nat) : Reader where
  levels := { sda := b, scl := true }
  inside := true
  high := some b
  count := c

/-- The latches in that phase. -/
def raisedLatches (b : Bool) : PerLine Latch where
  sda := sdaLatch b
  scl := freeLatch

theorem start_reads (us : Half) :
    Reads Reader.idle ⟨freeLatch, freeLatch⟩ (startEvents us) Reader.open ⟨lowLatch, lowLatch⟩ [.start] :=
  ⟨rfl, rfl, rfl⟩

/-- SDA is let rise while SCL is low, then SCL rises. -/
theorem rise_reads (us : Half) (x : Latch) :
    Reads Reader.open ⟨x, lowLatch⟩ (releaseEvents .sda ++ [.delay us] ++ raiseEvents us promptWait)
      (Reader.raised true 0) (raisedLatches true) [] :=
  ⟨rfl, rfl, rfl⟩

/-- A repeated start falls in the high phase that the rise opened. -/
theorem rstart_reads (us : Half) (x : Latch) :
    Reads Reader.open ⟨x, lowLatch⟩ (rstartEvents us promptWait) Reader.open ⟨lowLatch, lowLatch⟩ [.rstart] := by
  have hfall : Reads (Reader.raised true 0) (raisedLatches true) (startEvents us) Reader.open ⟨lowLatch, lowLatch⟩
      [.rstart] := ⟨rfl, rfl, rfl⟩
  have hall := (rise_reads us x).append hfall
  rwa [startEvents, ← List.append_assoc, ← List.append_assoc] at hall

/-- SDA is pulled low while SCL is low, SCL rises, and SDA rises in the high phase. -/
theorem stop_reads (us : Half) (x : Latch) :
    Reads Reader.open ⟨x, lowLatch⟩ (stopEvents us promptWait) Reader.idle ⟨freeLatch, freeLatch⟩ [.stop] := by
  have hrise : Reads Reader.open ⟨x, lowLatch⟩ (lowEvents .sda ++ [.delay us] ++ raiseEvents us promptWait)
      (Reader.raised false 0) (raisedLatches false) [] := ⟨rfl, rfl, rfl⟩
  have hstop : Reads (Reader.raised false 0) (raisedLatches false) (releaseEvents .sda) Reader.idle
      ⟨freeLatch, freeLatch⟩ [.stop] := ⟨rfl, rfl, rfl⟩
  have hdelay : Reads Reader.idle ⟨freeLatch, freeLatch⟩ [.delay us] Reader.idle ⟨freeLatch, freeLatch⟩ [] :=
    ⟨rfl, rfl, rfl⟩
  exact (hrise.append hstop).append hdelay

/-- The first bit of a byte is read at the end of its clock, so its own events give no symbol. -/
theorem firstBit_reads (us : Half) (x : Latch) (b : Bool) :
    Reads Reader.open ⟨x, lowLatch⟩ (writtenBit us b promptWait) (Reader.raised b 0) (raisedLatches b) [] := by
  cases b with
  | false | true => exact ⟨rfl, rfl, rfl⟩

/-- The events of a later bit begin with the falling edge that ends the clock of the bit before it. -/
theorem nextBit_reads (us : Half) (a b : Bool) (c : Nat) :
    Reads (Reader.raised a c) (raisedLatches a) (writtenBit us b promptWait) (Reader.raised b ((c + 1) % 9))
      (raisedLatches b) [bitSymbol c a] := by
  cases a with
  | false | true => cases b with
    | false | true => exact ⟨rfl, rfl, rfl⟩

/-- The data bits `n-1` down to 0 of `d`, as symbols. -/
def dataSymbols (d : Byte) : Nat → List Symbol
  | 0 => []
  | n + 1 => .bit (d.getLsbD n) :: dataSymbols d n

/-- Bits `n-1` down to 0 after bit `a`: the last of them is still to be read when its events have ended. -/
theorem promptBits_reads (us : Half) (d : Byte) (n : Nat) {a : Bool} {c : Nat} (hc : c + n < 8) :
    ∃ b syms, Reads (Reader.raised a c) (raisedLatches a) (promptBits us d n) (Reader.raised b (c + n))
      (raisedLatches b) syms ∧ syms ++ [.bit b] = .bit a :: dataSymbols d n := by
  induction n generalizing a c with
  | zero => exact ⟨a, [], ⟨rfl, rfl, rfl⟩, rfl⟩
  | succ n ih =>
    obtain ⟨b, syms, hrest, hsyms⟩ := ih (a := d.getLsbD n) (c := c + 1) (by omega)
    have hbit := nextBit_reads us a (d.getLsbD n) c
    rw [Nat.mod_eq_of_lt (by omega), bitSymbol, if_neg (by omega)] at hbit
    rw [Nat.add_assoc, Nat.add_comm 1 n] at hrest
    exact ⟨b, _, hbit.append hrest, by rw [List.append_assoc, hsyms]; rfl⟩

/-- The slot ends the clock of bit 0, and its own clock reads N. -/
theorem ackSlot_reads (us : Half) (b : Bool) :
    Reads (Reader.raised b 7) (raisedLatches b) (ackSlot us true promptWait)
      ⟨{ sda := true, scl := false }, true, none, 0⟩ ⟨freeLatch, lowLatch⟩ [.bit b, .nack] := by
  have hrise : Reads (Reader.raised b 7) (raisedLatches b)
      (lowEvents .scl ++ releaseEvents .sda ++ [.delay us] ++ raiseEvents us promptWait) (Reader.raised true 8)
      (raisedLatches true) [.bit b] := by
    cases b with
    | false | true => exact ⟨rfl, rfl, rfl⟩
  have hsample : Reads (Reader.raised true 8) (raisedLatches true) [.read .sda true] (Reader.raised true 8)
      (raisedLatches true) [] := ⟨rfl, rfl, rfl⟩
  have hfall : Reads (Reader.raised true 8) (raisedLatches true) (lowEvents .scl)
      ⟨{ sda := true, scl := false }, true, none, 0⟩ ⟨freeLatch, lowLatch⟩ [.nack] := ⟨rfl, rfl, rfl⟩
  exact (hrise.append hsample).append hfall

/-- R104: a written byte that nothing acknowledges. -/
theorem promptByte_reads (us : Half) (x : Latch) (d : Byte) :
    wireSymbols Reader.open (quietPoints ⟨x, lowLatch⟩ (promptByte us d)) = byteSymbols d ++ [.nack] := by
  obtain ⟨b, syms, hrest, hsyms⟩ := promptBits_reads us d 7 (a := d.getLsbD 7) (c := 0) (by decide)
  have hbyte := ((firstBit_reads us x (d.getLsbD 7)).append hrest).append (ackSlot_reads us b)
  have hall : byteSymbols d ++ [.nack] = ([] ++ syms) ++ [.bit b, .nack] := by
    rw [show byteSymbols d = .bit (d.getLsbD 7) :: dataSymbols d 7 from rfl, ← hsyms, List.append_assoc]
    rfl
  rw [hall]
  exact hbyte.symbols

/-- The points a quiet bus's events leave. -/
theorem Bus.Draws.points {b c : Bus} {es : List Event} {k : PerLine Latch} (h : b.Draws c es) (hk : b.latch = k)
    (hq : b.Quiet es.length) : c.trace = b.trace ++ quietPoints k es :=
  hk ▸ (h 0 hq).1

/-- Settles O49: the points of each command are those of its events, and the reader over them is known. -/
theorem wireSymbolsOnQuietBus : Obligations.WireSymbolsOnQuietBus := by
  unfold Obligations.WireSymbolsOnQuietBus
  refine ⟨fun s hidle hreleased hquiet => ?_, fun s hactive hscl hpolls => ?_⟩
  · have hdraws := startSeq_draws (clearTimeout s)
    rw [exec_start hidle]
    generalize startSeq (clearTimeout s) = u at *
    exact ⟨_, _, rfl, hdraws.points hreleased hquiet.quiet, (start_reads s.delayUs).symbols⟩
  · have hlatch : s.bus.latch = ⟨s.bus.latch.sda, lowLatch⟩ := by rw [lowLatch, ← hscl]
    refine ⟨fun hquiet => ?_, fun hquiet => ?_, fun d hquiet => ?_⟩
    · have hdraws := rstartSeq_draws (s := clearTimeout s) hpolls
      rw [exec_rstart hactive]
      generalize rstartSeq (clearTimeout s) = u at *
      exact ⟨_, _, rfl, hdraws.points hlatch hquiet.quiet, (rstart_reads s.delayUs s.bus.latch.sda).symbols⟩
    · have hdraws := stopSeq_draws (s := clearTimeout s) hpolls
      rw [exec_stop hactive]
      generalize stopSeq (clearTimeout s) = u at *
      exact ⟨_, _, rfl, hdraws.points hlatch hquiet.quiet, (stop_reads s.delayUs s.bus.latch.sda).symbols⟩
    · have hdraws := writeByteCore_draws d (s := clearTimeout s) hpolls
      rw [exec_writeByte d hactive]
      generalize writeByteCore d (clearTimeout s) = u at *
      exact ⟨_, _, rfl, hdraws.points hlatch (by rw [promptByte_length]; exact hquiet.quiet),
        promptByte_reads s.delayUs s.bus.latch.sda d⟩

end Sys2Proof.Machine
end
